-- ==== Sys2Proof/Word.lean ====
section
/-! DEFINITION. The word and byte types of WISC-SP19 and their two integer readings (spec/00_scope.md rules R5, R7,
R9, R11). -/

namespace Sys2Proof

/-- A 16-bit value: a register, the PC, EPC, an address while it is computed, an instruction word (rules R4, R5, R7).
Bit 0 is the least significant bit (rule R9). -/
abbrev Word := BitVec 16

/-- The unit of addressing: an address names one 8-bit byte (rule R41). -/
abbrev Byte := BitVec 8

/-- `u(v)` of rule R11: the unsigned reading, 0 to 65535. -/
def Word.u (v : Word) : Int := v.toNat

/-- `s(v)` of rule R11: `u(v)` where bit 15 is 0, else `u(v) - 65536`. -/
def Word.s (v : Word) : Int := if v.toNat < 32768 then v.toNat else (v.toNat : Int) - 65536

end Sys2Proof
end

