-- ==== Sys2Proof/Machine/Alu.lean ====
section
/-! DEFINITION. The shift, rotate and bit-reverse operations (spec/00_scope.md rule R12, spec/46_alu_register.md rules R175
to R179). Addition, subtraction and the logical operations are those of `BitVec 16`: modulo 2^16, no trap (rule R170). -/

namespace Sys2Proof.Machine

/-- `rol(a, n)`: `rol(a, n)[(i + n) mod 16] = a[i]` (rule R12). -/
def rotLeft (a : Word) (n : Nat) : Word := a.rotateLeft n

/-- `ror(a, n)`: `ror(a, n)[i] = a[(i + n) mod 16]` (rule R12). -/
def rotRight (a : Word) (n : Nat) : Word := a.rotateRight n

/-- `a << n`, logical (rule R12). -/
def shiftLeft (a : Word) (n : Nat) : Word := a <<< n

/-- `a >> n`, logical: zeros enter at bit 15 (rule R12). -/
def shiftRight (a : Word) (n : Nat) : Word := a >>> n

/-- The left-right reversal of the 16 bits: bit `i` of the result is bit `15 - i` of `a` (rule R179). -/
def bitReverse (a : Word) : Word := a.reverse

/-- `{v[7:0], b}`: shifted 8 bits to the left, the lower 8 bits replaced (rule R141). -/
def shiftInByte (v b : Word) : Word := (v <<< 8) ||| b

end Sys2Proof.Machine
end

