-- ==== Sys2Proof/Config.lean ====
section
/-! DEFINITION. The implementation parameters of spec/00_scope.md rule R8, each with the spec's default.
`MISALIGNED` has one defined value, `fault` (spec/92_eei_decisions.md D6), so it is no field.
`HANDLER` is the source's own constant, not a parameter: it stands in Machine/Ops.lean.
`REG_RESET` and the image part of `MEM_INIT` are arguments of `Machine.State.afterReset`. -/

namespace Sys2Proof

/-- `ENDIAN`: the order of a word's two bytes in memory (rule R44). -/
inductive Endian where
  | big
  | little
deriving DecidableEq, Repr

/-- `MEM_INIT` outside the image: what a byte reads as that neither the host nor a store has written (rules R58, R243). -/
inductive MemInit where
  /-- No value: the read is `fault UnspecifiedRead` (the spec's default). -/
  | unspecified
  /-- Each such byte reads as zero. -/
  | zero
deriving DecidableEq, Repr

/-- `SMC`: what a fetch from a word that ST or STU has written since reset does (rule R53). -/
inductive Smc where
  /-- `fault CodeModified` (the spec's default). -/
  | refuse
  /-- The fetch sees the store. -/
  | coherent
  /-- The fetch reads a separate copy of the image loaded at reset. -/
  | split
deriving DecidableEq, Repr

/-- The parameters of rule R8 that a run is fixed with. -/
structure Config where
  /-- `ENDIAN` (rule R44). -/
  endian : Endian
  /-- `RESET_PC`, read at reset only (rule R240). -/
  resetPc : Word
  /-- `MEM_INIT` outside the image (rule R243). -/
  memInit : MemInit
  /-- `EXC_IMPLEMENTED`: SIIC and RTI have their ISA meaning (rules R203, R204), or the deferred one (R205). -/
  excImplemented : Bool
  /-- `SMC` (rule R53). -/
  smc : Smc
deriving DecidableEq, Repr

/-- The defaults of rule R8. -/
def Config.default : Config where
  endian := .big
  resetPc := 0x0000
  memInit := .unspecified
  excImplemented := true
  smc := .refuse

end Sys2Proof
end

