-- ==== Sys2Proof/Syntax.lean ====
section
/-! DEFINITION. The abstract syntax of WISC-SP19: one constructor per row of spec/opcode_table.json, with its operands
in the order of the assembly syntax (spec/30_encoding.md rules R70, R91). -/

namespace Sys2Proof

/-- One of the eight general registers R0 to R7, the value of a 3-bit register field (rules R6, R20). -/
abbrev Reg := Fin 8

/-- R7, "the link register": JAL and JALR write it whatever their operands (rule R22). -/
abbrev linkReg : Reg := 7

/-- The 38 instructions of rule R70.
Operands stand as the assembly syntax of rule R91 has them, and carry the value the listing shows (rule R92): a signed
immediate or displacement is an `Int`, an unsigned immediate or a shift amount a `Nat`.
The ranges of rule R66 are `Instr.WellFormed`'s to check. -/
inductive Instr where
  /-- `HALT` (R200). -/
  | halt
  /-- `NOP` (R201). -/
  | nop
  /-- `SIIC Rs` (R203): the register is a dummy name that the hardware ignores. -/
  | siic (rs : Reg)
  /-- `RTI` (R204). -/
  | rti
  /-- `J displacement` (R100). -/
  | j (disp : Int)
  /-- `JR Rs, immediate` (R150). -/
  | jr (rs : Reg) (imm : Int)
  /-- `JAL displacement` (R101). -/
  | jal (disp : Int)
  /-- `JALR Rs, immediate` (R151). -/
  | jalr (rs : Reg) (imm : Int)
  /-- `SUBI Rd, Rs, immediate` (R110). -/
  | subi (rd rs : Reg) (imm : Int)
  /-- `ADDI Rd, Rs, immediate` (R111). -/
  | addi (rd rs : Reg) (imm : Int)
  /-- `ANDNI Rd, Rs, immediate` (R112), the immediate unsigned. -/
  | andni (rd rs : Reg) (imm : Nat)
  /-- `XORI Rd, Rs, immediate` (R113), the immediate unsigned. -/
  | xori (rd rs : Reg) (imm : Nat)
  /-- `BNEZ Rs, signed immediate` (R160). -/
  | bnez (rs : Reg) (imm : Int)
  /-- `BEQZ Rs, signed immediate` (R161). -/
  | beqz (rs : Reg) (imm : Int)
  /-- `BLTZ Rs, signed immediate` (R162). -/
  | bltz (rs : Reg) (imm : Int)
  /-- `BGEZ Rs, signed immediate` (R163). -/
  | bgez (rs : Reg) (imm : Int)
  /-- `ST Rd, Rs, immediate` (R130): Rd is the register stored, Rs the base. -/
  | st (rd rs : Reg) (imm : Int)
  /-- `LD Rd, Rs, immediate` (R131): Rd is the destination, Rs the base. -/
  | ld (rd rs : Reg) (imm : Int)
  /-- `SLBI Rs, unsigned immediate` (R141). -/
  | slbi (rs : Reg) (imm : Nat)
  /-- `STU Rd, Rs, immediate` (R132): Rd is the register stored, Rs the base, which is also written. -/
  | stu (rd rs : Reg) (imm : Int)
  /-- `ROLI Rd, Rs, immediate` (R114), the amount 0 to 15 (the ignored `inst[4]` is dropped by the decoder). -/
  | roli (rd rs : Reg) (amt : Nat)
  /-- `SLLI Rd, Rs, immediate` (R115), the amount as for ROLI. -/
  | slli (rd rs : Reg) (amt : Nat)
  /-- `RORI Rd, Rs, immediate` (R116), the amount as for ROLI. -/
  | rori (rd rs : Reg) (amt : Nat)
  /-- `SRLI Rd, Rs, immediate` (R117), the amount as for ROLI. -/
  | srli (rd rs : Reg) (amt : Nat)
  /-- `LBI Rs, signed immediate` (R140): Rs is the destination. -/
  | lbi (rs : Reg) (imm : Int)
  /-- `BTR Rd, Rs` (R179). -/
  | btr (rd rs : Reg)
  /-- `ROL Rd, Rs, Rt` (R175). -/
  | rol (rd rs rt : Reg)
  /-- `SLL Rd, Rs, Rt` (R176). -/
  | sll (rd rs rt : Reg)
  /-- `ROR Rd, Rs, Rt` (R177). -/
  | ror (rd rs rt : Reg)
  /-- `SRL Rd, Rs, Rt` (R178). -/
  | srl (rd rs rt : Reg)
  /-- `ADD Rd, Rs, Rt` (R171). -/
  | add (rd rs rt : Reg)
  /-- `SUB Rd, Rs, Rt` (R172): Rt minus Rs. -/
  | sub (rd rs rt : Reg)
  /-- `XOR Rd, Rs, Rt` (R173). -/
  | xor (rd rs rt : Reg)
  /-- `ANDN Rd, Rs, Rt` (R174): Rs and not Rt. -/
  | andn (rd rs rt : Reg)
  /-- `SEQ Rd, Rs, Rt` (R190). -/
  | seq (rd rs rt : Reg)
  /-- `SLT Rd, Rs, Rt` (R191). -/
  | slt (rd rs rt : Reg)
  /-- `SLE Rd, Rs, Rt` (R192). -/
  | sle (rd rs rt : Reg)
  /-- `SCO Rd, Rs, Rt` (R193). -/
  | sco (rd rs rt : Reg)
deriving DecidableEq, Repr

end Sys2Proof
end

