-- ==== Sys2Proof/WellFormed.lean ====
section
/-! DEFINITION. Which instructions the encoding can hold: every immediate in the range of its field
(spec/30_encoding.md rules R66, R67, R92). A register operand is in range by its type. -/

namespace Sys2Proof

/-- imm5, signed: -16 to 15 (ADDI, SUBI, LD, ST, STU). -/
abbrev InSimm5 (imm : Int) : Prop := -16 ≤ imm ∧ imm ≤ 15

/-- imm5, unsigned: 0 to 31 (XORI, ANDNI). -/
abbrev InUimm5 (imm : Nat) : Prop := imm ≤ 31

/-- Shift amount: 0 to 15 (ROLI, SLLI, RORI, SRLI). -/
abbrev InShamt (amt : Nat) : Prop := amt ≤ 15

/-- imm8, signed: -128 to 127 (LBI, JR, JALR and the branches). -/
abbrev InSimm8 (imm : Int) : Prop := -128 ≤ imm ∧ imm ≤ 127

/-- imm8, unsigned: 0 to 255 (SLBI). -/
abbrev InUimm8 (imm : Nat) : Prop := imm ≤ 255

/-- disp11: -1024 to 1023 (J, JAL). -/
abbrev InDisp11 (disp : Int) : Prop := -1024 ≤ disp ∧ disp ≤ 1023

/-- The check of one instruction: its immediate, where it has one, lies in the range of its field. -/
def Instr.wellFormed : Instr → Bool
  | .halt | .nop | .siic _ | .rti => true
  | .j disp | .jal disp => decide (InDisp11 disp)
  | .jr _ imm | .jalr _ imm => decide (InSimm8 imm)
  | .subi _ _ imm | .addi _ _ imm => decide (InSimm5 imm)
  | .andni _ _ imm | .xori _ _ imm => decide (InUimm5 imm)
  | .bnez _ imm | .beqz _ imm | .bltz _ imm | .bgez _ imm => decide (InSimm8 imm)
  | .st _ _ imm | .ld _ _ imm | .stu _ _ imm => decide (InSimm5 imm)
  | .slbi _ imm => decide (InUimm8 imm)
  | .roli _ _ amt | .slli _ _ amt | .rori _ _ amt | .srli _ _ amt => decide (InShamt amt)
  | .lbi _ imm => decide (InSimm8 imm)
  | .btr _ _ => true
  | .rol _ _ _ | .sll _ _ _ | .ror _ _ _ | .srl _ _ _ => true
  | .add _ _ _ | .sub _ _ _ | .xor _ _ _ | .andn _ _ _ => true
  | .seq _ _ _ | .slt _ _ _ | .sle _ _ _ | .sco _ _ _ => true

/-- An instruction whose operands its encoding can hold. -/
abbrev Instr.WellFormed (i : Instr) : Prop := i.wellFormed = true

end Sys2Proof
end

