-- ==== Sys2Proof/Decode.lean ====
section
/-! DEFINITION. The decoder of spec/30_encoding.md rule R71, total on any word and rejecting by name a byte sequence
too short to hold one, the encoder written from the same formats (rules R61 to R65), and the byte order of a word
(spec/20_memory.md rules R42 to R44). -/

namespace Sys2Proof

/-! ## Byte order -/

/-- The word whose byte at the lower address is `b0` and at the next is `b1` (rule R42). -/
def joinWord (e : Endian) (b0 b1 : Byte) : Word :=
  match e with
  | .big => b0 ++ b1
  | .little => b1 ++ b0

/-- The byte of `v` stored at the lower address (rule R43). -/
def lowAddrByte (e : Endian) (v : Word) : Byte :=
  match e with
  | .big => v.extractLsb' 8 8
  | .little => v.extractLsb' 0 8

/-- The byte of `v` stored at the higher address (rule R43). -/
def highAddrByte (e : Endian) (v : Word) : Byte :=
  match e with
  | .big => v.extractLsb' 0 8
  | .little => v.extractLsb' 8 8

/-! ## The fields of an instruction word -/

/-- The opcode `inst[15:11]` (rule R10). -/
def opcodeField (w : Word) : Fin 32 := (w.extractLsb' 11 5).toFin

/-- `sss` = `inst[10:8]`, the register Rs of every format that has one (rules R62 to R64). -/
def sField (w : Word) : Reg := (w.extractLsb' 8 3).toFin

/-- `inst[7:5]`: Rd of I-format 1 (rule R62), Rt of the R-format (rule R64). -/
def tField (w : Word) : Reg := (w.extractLsb' 5 3).toFin

/-- `inst[4:2]`: Rd of the R-format (rule R64). -/
def dField (w : Word) : Reg := (w.extractLsb' 2 3).toFin

/-- The opcode extension `inst[1:0]` (rule R72). -/
def extField (w : Word) : Fin 4 := (w.extractLsb' 0 2).toFin

/-- imm5 as a signed value (rule R66). -/
def simm5Field (w : Word) : Int := (w.extractLsb' 0 5).toInt

/-- imm5 as an unsigned value (rule R66). -/
def uimm5Field (w : Word) : Nat := (w.extractLsb' 0 5).toNat

/-- The shift amount `inst[3:0]`; `inst[4]` is ignored (rule R67). -/
def shamtField (w : Word) : Nat := (w.extractLsb' 0 4).toNat

/-- imm8 as a signed value (rule R66). -/
def simm8Field (w : Word) : Int := (w.extractLsb' 0 8).toInt

/-- imm8 as an unsigned value (rule R66). -/
def uimm8Field (w : Word) : Nat := (w.extractLsb' 0 8).toNat

/-- disp11 (rule R66). -/
def disp11Field (w : Word) : Int := (w.extractLsb' 0 11).toInt

/-! ## Decoding -/

/-- Opcode 11010: the register shifts, by the extension (rule R72). -/
def decodeShift (w : Word) : Instr :=
  match extField w with
  | 0 => .rol (dField w) (sField w) (tField w)
  | 1 => .sll (dField w) (sField w) (tField w)
  | 2 => .ror (dField w) (sField w) (tField w)
  | 3 => .srl (dField w) (sField w) (tField w)

/-- Opcode 11011: the register arithmetic, by the extension (rule R72). -/
def decodeArith (w : Word) : Instr :=
  match extField w with
  | 0 => .add (dField w) (sField w) (tField w)
  | 1 => .sub (dField w) (sField w) (tField w)
  | 2 => .xor (dField w) (sField w) (tField w)
  | 3 => .andn (dField w) (sField w) (tField w)

/-- Rule R71: every word decodes to exactly one instruction, by the opcode map of rule R70. -/
def decode (w : Word) : Instr :=
  match opcodeField w with
  | 0b00000 => .halt
  | 0b00001 => .nop
  | 0b00010 => .siic (sField w)
  | 0b00011 => .rti
  | 0b00100 => .j (disp11Field w)
  | 0b00101 => .jr (sField w) (simm8Field w)
  | 0b00110 => .jal (disp11Field w)
  | 0b00111 => .jalr (sField w) (simm8Field w)
  | 0b01000 => .subi (tField w) (sField w) (simm5Field w)
  | 0b01001 => .addi (tField w) (sField w) (simm5Field w)
  | 0b01010 => .andni (tField w) (sField w) (uimm5Field w)
  | 0b01011 => .xori (tField w) (sField w) (uimm5Field w)
  | 0b01100 => .bnez (sField w) (simm8Field w)
  | 0b01101 => .beqz (sField w) (simm8Field w)
  | 0b01110 => .bltz (sField w) (simm8Field w)
  | 0b01111 => .bgez (sField w) (simm8Field w)
  | 0b10000 => .st (tField w) (sField w) (simm5Field w)
  | 0b10001 => .ld (tField w) (sField w) (simm5Field w)
  | 0b10010 => .slbi (sField w) (uimm8Field w)
  | 0b10011 => .stu (tField w) (sField w) (simm5Field w)
  | 0b10100 => .roli (tField w) (sField w) (shamtField w)
  | 0b10101 => .slli (tField w) (sField w) (shamtField w)
  | 0b10110 => .rori (tField w) (sField w) (shamtField w)
  | 0b10111 => .srli (tField w) (sField w) (shamtField w)
  | 0b11000 => .lbi (sField w) (simm8Field w)
  | 0b11001 => .btr (dField w) (sField w)
  | 0b11010 => decodeShift w
  | 0b11011 => decodeArith w
  | 0b11100 => .seq (dField w) (sField w) (tField w)
  | 0b11101 => .slt (dField w) (sField w) (tField w)
  | 0b11110 => .sle (dField w) (sField w) (tField w)
  | 0b11111 => .sco (dField w) (sField w) (tField w)
  | ⟨_ + 32, h⟩ => absurd h (by omega)

/-- Why a byte sequence holds no instruction. -/
inductive DecodeReject where
  /-- Fewer than two bytes: every instruction is one 16-bit word (rules R4, R60). No word itself is rejected (R71). -/
  | truncated
deriving DecidableEq, Repr

/-- The instruction at the front of a byte sequence, first byte at the lowest address, and the bytes after it. -/
def decodeBytes (e : Endian) : List Byte → Except DecodeReject (Instr × List Byte)
  | b0 :: b1 :: rest => .ok (decode (joinWord e b0 b1), rest)
  | [_] => .error .truncated
  | [] => .error .truncated

/-- The word that the low `nbits` bits of `w` are, every bit above them 0. -/
def tableWord (nbits w : Nat) : Word := BitVec.ofNat 16 (w % 2 ^ nbits)

/-- The instruction the decoder reads from a word of spec/opcode_table.json, laid out as two bytes in memory. -/
def decodeTableWord (nbits w : Nat) : Option Instr :=
  let v := tableWord nbits w
  match decodeBytes .big [lowAddrByte .big v, highAddrByte .big v] with
  | .ok (i, _) => some i
  | .error _ => none

/-! ## Encoding -/

/-- A field value placed with its least significant bit at bit `lo` of the word. -/
def place {n : Nat} (f : BitVec n) (lo : Nat) : Word := f.setWidth 16 <<< lo

/-- The 3-bit field of a register number. -/
def regBits (r : Reg) : BitVec 3 := BitVec.ofFin r

/-- J-format: Op Code, Displacement (rule R61). -/
def packJ (op : BitVec 5) (disp : BitVec 11) : Word := place op 11 ||| place disp 0

/-- I-format 1: Op Code, Rs, Rd, Immediate (rule R62). -/
def packI1 (op : BitVec 5) (s d : Reg) (imm : BitVec 5) : Word :=
  place op 11 ||| place (regBits s) 8 ||| place (regBits d) 5 ||| place imm 0

/-- I-format 2: Op Code, Rs, Immediate (rule R63). -/
def packI2 (op : BitVec 5) (s : Reg) (imm : BitVec 8) : Word :=
  place op 11 ||| place (regBits s) 8 ||| place imm 0

/-- R-format: Op Code, Rs, Rt, Rd, Op Code Extension (rule R64). -/
def packR (op : BitVec 5) (s t d : Reg) (ext : BitVec 2) : Word :=
  place op 11 ||| place (regBits s) 8 ||| place (regBits t) 5 ||| place (regBits d) 2 ||| place ext 0

/-- The canonical word of an instruction: a signed operand in two's complement, every ignored bit 0 (rules R73, R92).
An operand outside its field's range is cut to the field; `Instr.WellFormed` rules such instructions out. -/
def encode : Instr → Word
  | .halt => packJ 0b00000 0
  | .nop => packJ 0b00001 0
  | .siic rs => packI2 0b00010 rs 0
  | .rti => packJ 0b00011 0
  | .j disp => packJ 0b00100 (BitVec.ofInt 11 disp)
  | .jr rs imm => packI2 0b00101 rs (BitVec.ofInt 8 imm)
  | .jal disp => packJ 0b00110 (BitVec.ofInt 11 disp)
  | .jalr rs imm => packI2 0b00111 rs (BitVec.ofInt 8 imm)
  | .subi rd rs imm => packI1 0b01000 rs rd (BitVec.ofInt 5 imm)
  | .addi rd rs imm => packI1 0b01001 rs rd (BitVec.ofInt 5 imm)
  | .andni rd rs imm => packI1 0b01010 rs rd (BitVec.ofNat 5 imm)
  | .xori rd rs imm => packI1 0b01011 rs rd (BitVec.ofNat 5 imm)
  | .bnez rs imm => packI2 0b01100 rs (BitVec.ofInt 8 imm)
  | .beqz rs imm => packI2 0b01101 rs (BitVec.ofInt 8 imm)
  | .bltz rs imm => packI2 0b01110 rs (BitVec.ofInt 8 imm)
  | .bgez rs imm => packI2 0b01111 rs (BitVec.ofInt 8 imm)
  | .st rd rs imm => packI1 0b10000 rs rd (BitVec.ofInt 5 imm)
  | .ld rd rs imm => packI1 0b10001 rs rd (BitVec.ofInt 5 imm)
  | .slbi rs imm => packI2 0b10010 rs (BitVec.ofNat 8 imm)
  | .stu rd rs imm => packI1 0b10011 rs rd (BitVec.ofInt 5 imm)
  | .roli rd rs amt => packI1 0b10100 rs rd (BitVec.ofNat 5 (amt % 16))
  | .slli rd rs amt => packI1 0b10101 rs rd (BitVec.ofNat 5 (amt % 16))
  | .rori rd rs amt => packI1 0b10110 rs rd (BitVec.ofNat 5 (amt % 16))
  | .srli rd rs amt => packI1 0b10111 rs rd (BitVec.ofNat 5 (amt % 16))
  | .lbi rs imm => packI2 0b11000 rs (BitVec.ofInt 8 imm)
  | .btr rd rs => packR 0b11001 rs 0 rd 0
  | .rol rd rs rt => packR 0b11010 rs rt rd 0
  | .sll rd rs rt => packR 0b11010 rs rt rd 1
  | .ror rd rs rt => packR 0b11010 rs rt rd 2
  | .srl rd rs rt => packR 0b11010 rs rt rd 3
  | .add rd rs rt => packR 0b11011 rs rt rd 0
  | .sub rd rs rt => packR 0b11011 rs rt rd 1
  | .xor rd rs rt => packR 0b11011 rs rt rd 2
  | .andn rd rs rt => packR 0b11011 rs rt rd 3
  | .seq rd rs rt => packR 0b11100 rs rt rd 0
  | .slt rd rs rt => packR 0b11101 rs rt rd 0
  | .sle rd rs rt => packR 0b11110 rs rt rd 0
  | .sco rd rs rt => packR 0b11111 rs rt rd 0

end Sys2Proof
end

