-- ==== Sys2Proof/Machine/State.lean ====
section
/-! DEFINITION. The state of the machine as plain data (spec/10_state.md rules R20 to R33), the reasons a step can
stop (spec/60_exceptions.md rule R216), and the state after reset (spec/70_reset_and_hazards.md rules R240 to R244). -/

namespace Sys2Proof.Machine

/-- A byte-addressed memory: the bytes that the host or a store has written, by address, the addresses strictly rising.
An unlisted address holds no value (rule R58); what a read of it does is `Config.memInit`'s to say. -/
abbrev Memory := List Host.Cell

/-- A set of addresses, strictly rising. -/
abbrev AddrSet := List Nat

/-- The machine. -/
structure State where
  /-- The parameters the run is fixed with (rule R8).
  DESIGN CHOICE (log 3), safe: they are no state of the hardware; they stand here because a step takes a state and
  nothing else, and no step changes them. -/
  cfg : Config
  /-- `x[0]` to `x[7]` (rule R20). -/
  regs : Vector Word 8
  /-- The program counter (rule R26). -/
  pc : Word
  /-- EPC, the exception program counter, the one control register (rules R29, R30). -/
  epc : Word
  /-- `Mem`, the memory that LD, ST and STU reach and, but under `SMC = split`, the fetch (rule R33). -/
  mem : Memory
  /-- The copy of the image loaded at reset that the fetch reads under `SMC = split`; never written (rule R53). -/
  imem : Memory
  /-- The set `W` of even addresses written by ST or STU since reset (rules R53, R244). -/
  stored : AddrSet
  /-- `halted`: true from the execution of HALT until reset (rule R32). -/
  halted : Bool
deriving DecidableEq, Repr

/-- The model's stops of rule R216.
A stop is no exception of the hardware: it writes nothing and does not go to the handler. -/
inductive Fault where
  /-- `Misaligned(addr)`: raised by LD, ST and STU on an odd effective address, and by the fetch on an odd pc (rules R46,
  R47). Safe: the source gives such an access no meaning. -/
  | misaligned (addr : Word)
  /-- `UnspecifiedRead(Mem[addr])`: raised by LD and by the fetch on a word of which the host and the stores have not
  written both bytes, under `MEM_INIT = unspecified` (rule R58). Safe. -/
  | unspecifiedRead (addr : Word)
  /-- `CodeModified(pc)`: raised by the fetch from a word stored to since reset, under `SMC = refuse` (rule R53). Safe. -/
  | codeModified (addr : Word)
  /-- `Unimplemented(SIIC)`: raised by SIIC under `EXC_IMPLEMENTED = false` (rule R205). Safe. -/
  | unimplementedSiic
deriving DecidableEq, Repr

/-- The reasons an instruction has no meaning in the model. -/
inductive Refusal where
  /-- Raised by `exec` for an instruction that is not modelled, by its mnemonic (safe).
  No arm of `exec` raises it: every instruction of the opcode table has its meaning. -/
  | notModelled (mnemonic : String)
deriving DecidableEq, Repr

/-- What a step or a meaning answers. -/
abbrev Result := Host.Outcome State Fault Refusal

/-- The state a run begins in (rules R240 to R245), for every value of the parameters: `pc` at `RESET_PC`, `halted`
false, `W` empty, the registers and EPC at the values given, both memory views at the image the host has loaded. -/
def State.afterReset (c : Config) (regs : Vector Word 8) (epc : Word) (image : Memory) : State where
  cfg := c
  regs := regs
  pc := c.resetPc
  epc := epc
  mem := image
  imem := image
  stored := []
  halted := false

/-- The machine right after reset, with the defaults of rule R8 and no image loaded.
The registers and EPC are unspecified in the spec (rules R241, R242).
DESIGN CHOICE (log 1), unsafe: here they are zero, the spec's `REG_RESET = zero`. -/
def State.reset : State :=
  State.afterReset Config.default (Vector.replicate 8 0x0000) 0x0000 []

end Sys2Proof.Machine
end

