-- ==== Sys2Proof/Machine/Ops.lean ====
section
/-! DEFINITION. The named operations every meaning is written over: registers, the program counter, memory bytes and
words (spec/20_memory.md rules R42 to R49), the instruction fetch (rules R47, R53, R57), taking the exception and
returning from it (spec/60_exceptions.md rules R212, R217). -/

namespace Sys2Proof.Machine

/-! ## Registers and program counter -/

/-- `x[r]`: no register is hardwired (rules R20, R21). -/
def readReg (r : Reg) (s : State) : Word := s.regs[r]

/-- `x[r] <- v` (rule R12). -/
def writeReg (r : Reg) (v : Word) (s : State) : State := { s with regs := s.regs.set r v }

/-- `pc <- t` (rule R12). -/
def setPc (t : Word) (s : State) : State := { s with pc := t }

/-- `pc + 2`, the address of the next sequential instruction, modulo 2^16 (rules R26, R48). -/
def nextPc (s : State) : Word := s.pc + 2

/-- The end of an instruction whose pseudocode has no `pc <-`: `pc <- pc + 2` (rule R12). -/
def advance (s : State) : State := setPc (nextPc s) s

/-- The end of an instruction that writes one register: `x[r] <- v; pc <- pc + 2`. -/
def writeBack (r : Reg) (v : Word) (s : State) : State := advance (writeReg r v s)

/-- `epc <- v` (rule R30). -/
def setEpc (v : Word) (s : State) : State := { s with epc := v }

/-- `halted <- true` (rule R32). -/
def setHalted (s : State) : State := { s with halted := true }

/-! ## Memory, a byte at a time -/

/-- The byte written at address `a`, none where none has been. -/
def Memory.get : Memory → Nat → Option Byte
  | [], _ => none
  | (k, b) :: m, a => if k = a then some b else Memory.get m a

/-- Write one byte, keeping the addresses strictly rising. -/
def Memory.set : Memory → Nat → Byte → Memory
  | [], a, b => [(a, b)]
  | (k, c) :: m, a, b =>
    if a < k then (a, b) :: (k, c) :: m
    else if a = k then (a, b) :: m
    else (k, c) :: Memory.set m a b

/-- The canonical form: addresses strictly rising, each in the 2^16-byte space (rules R33, R40).
An unlisted address holds no value, so no listed byte can equal it. -/
abbrev Memory.wf (m : Memory) : Prop :=
  m.Pairwise (fun x y => x.1 < y.1) ∧ ∀ x ∈ m, x.1 < 65536

/-- The byte a read finds at address `a`: the one written there, else what `MEM_INIT` gives (rules R58, R243). -/
def Memory.readByte (init : MemInit) (m : Memory) (a : Nat) : Option Byte :=
  match m.get a with
  | some b => some b
  | none =>
    match init with
    | .unspecified => none
    | .zero => some 0

/-- Add an address to a set, keeping it strictly rising. -/
def AddrSet.insert : AddrSet → Nat → AddrSet
  | [], a => [a]
  | k :: ks, a =>
    if a < k then a :: k :: ks
    else if a = k then k :: ks
    else k :: AddrSet.insert ks a

/-- The canonical form of the set `W`: strictly rising even addresses (rule R53). -/
abbrev AddrSet.wf (w : AddrSet) : Prop :=
  w.Pairwise (· < ·) ∧ ∀ a ∈ w, a < 65536 ∧ a % 2 = 0

/-! ## Memory, a word at a time -/

/-- `addr[0] = 1`. -/
def isOdd (a : Word) : Bool := a.getLsbD 0

/-- `MemRead(addr, 2)` of a memory view (rule R42): an odd address is misaligned (R46, R47); a word of which a byte has
no value is an unspecified read (R58). -/
def readWord (c : Config) (m : Memory) (a : Word) : Except Fault Word :=
  if isOdd a then .error (.misaligned a)
  else
    match m.readByte c.memInit a.toNat, m.readByte c.memInit (a.toNat + 1) with
    | some b0, some b1 => .ok (joinWord c.endian b0 b1)
    | _, _ => .error (.unspecifiedRead a)

/-- The two bytes of a word written at an even address (rule R43). -/
def Memory.setWord (e : Endian) (m : Memory) (a v : Word) : Memory :=
  (m.set a.toNat (lowAddrByte e v)).set (a.toNat + 1) (highAddrByte e v)

/-- The data read of LD (rules R42, R46, R58). -/
def loadWord (a : Word) (s : State) : Except Fault Word := readWord s.cfg s.mem a

/-- The state after a completed store: the two bytes in `Mem` (rule R43), the address in the set `W` (rule R53). -/
def afterStore (a v : Word) (s : State) : State :=
  { s with mem := s.mem.setWord s.cfg.endian a v, stored := AddrSet.insert s.stored a.toNat }

/-- `MemWrite(addr, 2, v)`, the data write of ST and STU (rules R43, R46). -/
def storeWord (a v : Word) (s : State) : Except Fault State :=
  if isOdd a then .error (.misaligned a) else .ok (afterStore a v s)

/-- Go on with the value of an access, or stop with its fault. -/
def onOk {α : Type} (r : Except Fault α) (k : α → Result) : Result :=
  match r with
  | .ok a => k a
  | .error f => .fault f

/-! ## Instruction fetch -/

/-- The instruction word at `pc` (rule R57): an odd pc is misaligned (R47); a word stored to since reset is as `SMC` says
(R53). -/
def fetchWord (s : State) : Except Fault Word :=
  if isOdd s.pc then .error (.misaligned s.pc)
  else
    match s.cfg.smc with
    | .refuse =>
      if s.pc.toNat ∈ s.stored then .error (.codeModified s.pc) else readWord s.cfg s.mem s.pc
    | .coherent => readWord s.cfg s.mem s.pc
    | .split => readWord s.cfg s.imem s.pc

/-! ## The exception -/

/-- `HANDLER`: the constant address of the exception handler (rule R213). -/
def handlerAddress : Word := 0x0002

/-- `raise IllegalOp` (rule R212): `epc <- pc + 2; pc <- 0x0002`, and nothing else. -/
def raiseIllegalOp (s : State) : State := setPc handlerAddress (setEpc (nextPc s) s)

/-- The return from the exception (rule R217): `pc <- epc`, and nothing else. -/
def returnFromException (s : State) : State := setPc s.epc s

/-! ## Loading -/

/-- The memory that holds an image, a finite map from even addresses to words (rule R243). -/
def loadImage (e : Endian) : List (Word × Word) → Memory
  | [] => []
  | (a, v) :: ws => (loadImage e ws).setWord e a v

/-- Make `v` the instruction word that the next fetch finds at `pc`: in both memory views, as an image word, which `W` does
not hold (rules R53, R243). -/
def placeInstruction (v : Word) (s : State) : State :=
  { s with
    mem := s.mem.setWord s.cfg.endian s.pc v
    imem := s.imem.setWord s.cfg.endian s.pc v
    stored := s.stored.filter (fun a => a != s.pc.toNat)
    halted := false }

end Sys2Proof.Machine
end

