-- ==== Sys2Proof/Machine/Operands.lean ====
section
/-! DEFINITION. The operand forms: every extension of spec/30_encoding.md rule R66, the shift amounts of rule R67, the
one addressing mode (spec/42_load_store.md rule R133) and the two target forms of control transfer
(spec/10_state.md rule R27). An operand is first cut to its field, as the encoder cuts it (rule R92, log 9). -/

namespace Sys2Proof.Machine

/-- `sext_16(inst[4:0])`. -/
def simm5 (imm : Int) : Word := (BitVec.ofInt 5 imm).signExtend 16

/-- `zext_16(inst[4:0])`. -/
def uimm5 (imm : Nat) : Word := (BitVec.ofNat 5 imm).zeroExtend 16

/-- `sext_16(inst[7:0])`. -/
def simm8 (imm : Int) : Word := (BitVec.ofInt 8 imm).signExtend 16

/-- `zext_16(inst[7:0])`. -/
def uimm8 (imm : Nat) : Word := (BitVec.ofNat 8 imm).zeroExtend 16

/-- `sext_16(inst[10:0])`. -/
def disp11 (disp : Int) : Word := (BitVec.ofInt 11 disp).signExtend 16

/-- The amount of an immediate shift, `inst[3:0]` (rule R67). -/
def immShamt (amt : Nat) : Nat := (BitVec.ofNat 4 amt).toNat

/-- The amount of a register shift, `x[t][3:0]` (rule R67). -/
def regShamt (v : Word) : Nat := (v.extractLsb' 0 4).toNat

/-- `ea = x[s] + sext_16(inst[4:0])`, modulo 2^16 (rules R48, R133). -/
def effAddr (base : Word) (imm : Int) : Word := base + simm5 imm

/-- A PC-relative target: `pc + 2 + displacement`, modulo 2^16 (rules R27, R48). -/
def relTarget (s : State) (d : Word) : Word := nextPc s + d

/-- A register target: `x[s] + sext_16(inst[7:0])`, modulo 2^16 (rules R27, R48). -/
def regTarget (base : Word) (imm : Int) : Word := base + simm8 imm

end Sys2Proof.Machine
end

