-- ==== Sys2Proof/Machine/AluImmediate.lean ====
section
/-! DEFINITION. SUBI, ADDI, ANDNI, XORI, ROLI, SLLI, RORI, SRLI (spec/41_alu_immediate.md). -/

namespace Sys2Proof.Machine

/-- SUBI (rule R110): the immediate minus Rs. -/
def execSubi (rd rs : Reg) (imm : Int) (s : State) : Result := .next (writeBack rd (simm5 imm - readReg rs s) s)

/-- ADDI (rule R111). -/
def execAddi (rd rs : Reg) (imm : Int) (s : State) : Result := .next (writeBack rd (readReg rs s + simm5 imm) s)

/-- ANDNI (rule R112): the complement is taken after the zero extension. -/
def execAndni (rd rs : Reg) (imm : Nat) (s : State) : Result := .next (writeBack rd (readReg rs s &&& ~~~(uimm5 imm)) s)

/-- XORI (rule R113). -/
def execXori (rd rs : Reg) (imm : Nat) (s : State) : Result := .next (writeBack rd (readReg rs s ^^^ uimm5 imm) s)

/-- ROLI (rule R114). -/
def execRoli (rd rs : Reg) (amt : Nat) (s : State) : Result := .next (writeBack rd (rotLeft (readReg rs s) (immShamt amt)) s)

/-- SLLI (rule R115). -/
def execSlli (rd rs : Reg) (amt : Nat) (s : State) : Result :=
  .next (writeBack rd (shiftLeft (readReg rs s) (immShamt amt)) s)

/-- RORI (rule R116). -/
def execRori (rd rs : Reg) (amt : Nat) (s : State) : Result :=
  .next (writeBack rd (rotRight (readReg rs s) (immShamt amt)) s)

/-- SRLI (rule R117). -/
def execSrli (rd rs : Reg) (amt : Nat) (s : State) : Result :=
  .next (writeBack rd (shiftRight (readReg rs s) (immShamt amt)) s)

end Sys2Proof.Machine
end

