-- ==== Sys2Proof/Machine/AluRegister.lean ====
section
/-! DEFINITION. ADD, SUB, XOR, ANDN, ROL, SLL, ROR, SRL and BTR (spec/46_alu_register.md). -/

namespace Sys2Proof.Machine

/-- ADD (rule R171). -/
def execAdd (rd rs rt : Reg) (s : State) : Result := .next (writeBack rd (readReg rs s + readReg rt s) s)

/-- SUB (rule R172): Rt minus Rs. -/
def execSub (rd rs rt : Reg) (s : State) : Result := .next (writeBack rd (readReg rt s - readReg rs s) s)

/-- XOR (rule R173). -/
def execXor (rd rs rt : Reg) (s : State) : Result := .next (writeBack rd (readReg rs s ^^^ readReg rt s) s)

/-- ANDN (rule R174): it is Rt that is complemented. -/
def execAndn (rd rs rt : Reg) (s : State) : Result := .next (writeBack rd (readReg rs s &&& ~~~(readReg rt s)) s)

/-- ROL (rule R175). -/
def execRol (rd rs rt : Reg) (s : State) : Result :=
  .next (writeBack rd (rotLeft (readReg rs s) (regShamt (readReg rt s))) s)

/-- SLL (rule R176). -/
def execSll (rd rs rt : Reg) (s : State) : Result :=
  .next (writeBack rd (shiftLeft (readReg rs s) (regShamt (readReg rt s))) s)

/-- ROR (rule R177). -/
def execRor (rd rs rt : Reg) (s : State) : Result :=
  .next (writeBack rd (rotRight (readReg rs s) (regShamt (readReg rt s))) s)

/-- SRL (rule R178). -/
def execSrl (rd rs rt : Reg) (s : State) : Result :=
  .next (writeBack rd (shiftRight (readReg rs s) (regShamt (readReg rt s))) s)

/-- BTR (rule R179): only `x[s]` is read. -/
def execBtr (rd rs : Reg) (s : State) : Result := .next (writeBack rd (bitReverse (readReg rs s)) s)

end Sys2Proof.Machine
end

