-- ==== Sys2Proof/Machine/Flags.lean ====
section
/-! DEFINITION. WISC-SP19 has no flags and no condition codes (spec/10_state.md rule R28): this file holds what stands in
for them, the truth values of the set instructions (spec/47_set.md rules R190 to R194) and the conditions of the
branches (spec/45_branches.md rules R160 to R164). -/

namespace Sys2Proof.Machine

/-- The full 16-bit value 0x0001 or 0x0000 of a truth value (rule R194). -/
def truthWord (p : Bool) : Word := if p then 0x0001 else 0x0000

/-- SEQ: all 16 bits equal (rule R190). -/
def isEqual (a b : Word) : Bool := a == b

/-- SLT: the true comparison of the two signed readings (rule R191). -/
def isLess (a b : Word) : Bool := a.toInt < b.toInt

/-- SLE: likewise, with equality (rule R192). -/
def isLessEq (a b : Word) : Bool := a.toInt ≤ b.toInt

/-- SCO: bit 16 of the 17-bit unsigned sum (rule R193). -/
def carryOut (a b : Word) : Bool := (a.zeroExtend 17 + b.zeroExtend 17).getLsbD 16

/-- BEQZ; BNEZ tests its complement (rules R160, R161). -/
def isZero (v : Word) : Bool := v == 0x0000

/-- BLTZ: bit 15; BGEZ tests its complement (rules R162, R163). -/
def isNegative (v : Word) : Bool := v.getLsbD 15

end Sys2Proof.Machine
end

