-- ==== Sys2Proof/Machine/Branches.lean ====
section
/-! DEFINITION. BNEZ, BEQZ, BLTZ and BGEZ (spec/45_branches.md). -/

namespace Sys2Proof.Machine

/-- Rule R164: where the condition holds, `pc <- pc + 2 + sext_16(inst[7:0])`, else `pc <- pc + 2`. -/
def branchIf (c : Bool) (imm : Int) (s : State) : State :=
  if c then setPc (relTarget s (simm8 imm)) s else advance s

/-- BNEZ (rule R160). -/
def execBnez (rs : Reg) (imm : Int) (s : State) : Result := .next (branchIf (!isZero (readReg rs s)) imm s)

/-- BEQZ (rule R161). -/
def execBeqz (rs : Reg) (imm : Int) (s : State) : Result := .next (branchIf (isZero (readReg rs s)) imm s)

/-- BLTZ (rule R162). -/
def execBltz (rs : Reg) (imm : Int) (s : State) : Result := .next (branchIf (isNegative (readReg rs s)) imm s)

/-- BGEZ (rule R163). -/
def execBgez (rs : Reg) (imm : Int) (s : State) : Result := .next (branchIf (!isNegative (readReg rs s)) imm s)

end Sys2Proof.Machine
end

