-- ==== Sys2Proof/Machine/ByteImmediate.lean ====
section
/-! DEFINITION. LBI and SLBI (spec/43_byte_immediate.md). -/

namespace Sys2Proof.Machine

/-- LBI (rule R140): `x[s] <- sext_16(inst[7:0])`. -/
def execLbi (rs : Reg) (imm : Int) (s : State) : Result := .next (writeBack rs (simm8 imm) s)

/-- SLBI (rule R141): `x[s] <- (x[s] << 8) | zext_16(inst[7:0])`. -/
def execSlbi (rs : Reg) (imm : Nat) (s : State) : Result :=
  .next (writeBack rs (shiftInByte (readReg rs s) (uimm8 imm)) s)

end Sys2Proof.Machine
end

