-- ==== Sys2Proof/Machine/JumpRegister.lean ====
section
/-! DEFINITION. JR and JALR (spec/44_jump_register.md). -/

namespace Sys2Proof.Machine

/-- JR (rule R150): `pc <- x[s] + sext_16(inst[7:0])`. -/
def execJr (rs : Reg) (imm : Int) (s : State) : Result := .next (setPc (regTarget (readReg rs s) imm) s)

/-- JALR (rule R151): the target is taken from the old `x[s]`, then `x[7] <- pc + 2`. -/
def execJalr (rs : Reg) (imm : Int) (s : State) : Result :=
  .next (setPc (regTarget (readReg rs s) imm) (writeReg linkReg (nextPc s) s))

end Sys2Proof.Machine
end

