-- ==== Sys2Proof/Machine/Jumps.lean ====
section
/-! DEFINITION. J and JAL (spec/40_jumps.md). -/

namespace Sys2Proof.Machine

/-- J (rule R100): `pc <- pc + 2 + sext_16(inst[10:0])`. -/
def execJ (disp : Int) (s : State) : Result := .next (setPc (relTarget s (disp11 disp)) s)

/-- JAL (rule R101): `x[7] <- pc + 2; pc <- pc + 2 + sext_16(inst[10:0])`. -/
def execJal (disp : Int) (s : State) : Result :=
  .next (setPc (relTarget s (disp11 disp)) (writeReg linkReg (nextPc s) s))

end Sys2Proof.Machine
end

