-- ==== Sys2Proof/Machine/LoadStore.lean ====
section
/-! DEFINITION. ST, LD and STU (spec/42_load_store.md). Every source register is read before anything is written
(spec/10_state.md rule R24), and a misaligned or unspecified access stops with nothing written (rule R46). -/

namespace Sys2Proof.Machine

/-- ST (rule R130): `MemWrite(ea, 2, x[d])`. -/
def execSt (rd rs : Reg) (imm : Int) (s : State) : Result :=
  onOk (storeWord (effAddr (readReg rs s) imm) (readReg rd s) s) fun s' => .next (advance s')

/-- LD (rule R131): `x[d] <- MemRead(ea, 2)`. -/
def execLd (rd rs : Reg) (imm : Int) (s : State) : Result :=
  onOk (loadWord (effAddr (readReg rs s) imm) s) fun v => .next (writeBack rd v s)

/-- STU (rule R132): `MemWrite(ea, 2, x[d]); x[s] <- ea`. -/
def execStu (rd rs : Reg) (imm : Int) (s : State) : Result :=
  onOk (storeWord (effAddr (readReg rs s) imm) (readReg rd s) s) fun s' =>
    .next (writeBack rs (effAddr (readReg rs s) imm) s')

end Sys2Proof.Machine
end

