-- ==== Sys2Proof/Machine/SetCompare.lean ====
section
/-! DEFINITION. SEQ, SLT, SLE and SCO (spec/47_set.md). -/

namespace Sys2Proof.Machine

/-- SEQ (rule R190). -/
def execSeq (rd rs rt : Reg) (s : State) : Result :=
  .next (writeBack rd (truthWord (isEqual (readReg rs s) (readReg rt s))) s)

/-- SLT (rule R191): Rs less than Rt. -/
def execSlt (rd rs rt : Reg) (s : State) : Result :=
  .next (writeBack rd (truthWord (isLess (readReg rs s) (readReg rt s))) s)

/-- SLE (rule R192): Rs less than or equal to Rt. -/
def execSle (rd rs rt : Reg) (s : State) : Result :=
  .next (writeBack rd (truthWord (isLessEq (readReg rs s) (readReg rt s))) s)

/-- SCO (rule R193). -/
def execSco (rd rs rt : Reg) (s : State) : Result :=
  .next (writeBack rd (truthWord (carryOut (readReg rs s) (readReg rt s))) s)

end Sys2Proof.Machine
end

