-- ==== Sys2Proof/Machine/Special.lean ====
section
/-! DEFINITION. HALT, NOP, SIIC and RTI (spec/48_special.md). -/

namespace Sys2Proof.Machine

/-- HALT (rule R200): `halted <- true; pc <- pc + 2`. The dump of memory to a file is the host's act (log 17). -/
def execHalt (s : State) : Result := .next (advance (setHalted s))

/-- NOP (rule R201): `pc <- pc + 2`. -/
def execNop (s : State) : Result := .next (advance s)

/-- SIIC (rule R203): `raise IllegalOp`; the named register is not read.
While the extra-credit instructions are deferred the source says nothing of it, and the model stops (rule R205). -/
def execSiic (_rs : Reg) (s : State) : Result :=
  if s.cfg.excImplemented then .next (raiseIllegalOp s) else .fault .unimplementedSiic

/-- RTI (rule R204): `pc <- epc`. While deferred it is NOP, and EPC is not read (rule R205). -/
def execRti (s : State) : Result :=
  if s.cfg.excImplemented then .next (returnFromException s) else .next (advance s)

end Sys2Proof.Machine
end

