-- ==== Sys2Proof/Machine/Step.lean ====
section
/-! DEFINITION. One step of the machine: one instruction (spec/20_memory.md rule R57, spec/70_reset_and_hazards.md rules
R247 to R249). -/

namespace Sys2Proof.Machine

/-- While `halted` is true nothing is fetched or executed and no state changes (rule R32).
Otherwise the word at `pc` is fetched and the instruction it decodes to is executed (rule R57). -/
def step (s : State) : Host.Outcome State Fault Refusal :=
  if s.halted then .next s else onOk (fetchWord s) fun w => exec (decode w) s

/-- The state whose next step fetches and runs the instruction whose low `nbits` bits are those of `w` (log 13): the host's
load of one image word at `pc`. -/
def State.withFetchWord (s : State) (nbits w : Nat) : State := placeInstruction (tableWord nbits w) s

end Sys2Proof.Machine
end

