-- ==== Sys2Proof/Safety.lean ====
section
/-! DEFINITION. The terms the statements are made in: what an instruction leaves alone, the invariants of the state, what
a safe and a finished run are (spec/48_special.md rule R200, spec/60_exceptions.md rule R216), and when two states or two
outcomes correspond. -/

namespace Sys2Proof.Machine

/-! ## The fields of an instruction word, as numbers (spec/00_scope.md rules R9, R10) -/

/-- `inst[hi:lo]`, the unsigned field of bits `hi` down to `lo`. -/
def fieldNat (hi lo : Nat) (w : Word) : Nat := w.toNat / 2 ^ lo % 2 ^ (hi - lo + 1)

/-- `inst[hi:lo]` in two's complement. -/
def fieldInt (hi lo : Nat) (w : Word) : Int :=
  if fieldNat hi lo w < 2 ^ (hi - lo) then fieldNat hi lo w else (fieldNat hi lo w : Int) - 2 ^ (hi - lo + 1)

/-- The register that the 3-bit field from bit `lo` up selects (rule R20). -/
def fieldReg (lo : Nat) (w : Word) : Reg := Fin.ofNat 8 (fieldNat (lo + 2) lo w)

/-- Every word of the row with this mask and match decodes to the instruction `f` gives (rule R71). -/
def RowDecodes (mask pat : Word) (f : Word → Instr) : Prop := ∀ w : Word, w &&& mask = pat → decode w = f w

/-- The bits of a word that decoding looks at: all but those printed `x` in rule R70 and `inst[4]` of the immediate shifts
(rule R73). SIIC's register name is kept as an operand, and its meaning ignores it. -/
def significantBits (w : Word) : Word :=
  let op := fieldNat 15 11 w
  if op = 0 ∨ op = 1 ∨ op = 3 then 0xF800
  else if op = 2 then 0xFF00
  else if 20 ≤ op ∧ op ≤ 23 then 0xFFEF
  else if op = 25 then 0xFF1C
  else if 28 ≤ op then 0xFFFC
  else 0xFFFF

/-! ## What is left alone -/

/-- Every byte of both memory views, and the set `W`, as before. -/
def SameMemory (s t : State) : Prop :=
  (∀ a, t.mem.get a = s.mem.get a) ∧ (∀ a, t.imem.get a = s.imem.get a) ∧ t.stored = s.stored

/-- EPC, the halted mark and the parameters as before. -/
def SameControl (s t : State) : Prop :=
  t.epc = s.epc ∧ t.halted = s.halted ∧ t.cfg = s.cfg

/-- Every general register as before. -/
def SameRegs (s t : State) : Prop := ∀ r, readReg r t = readReg r s

/-- Every general register but `d` as before. -/
def SameRegsBut (d : Reg) (s t : State) : Prop := ∀ r, r ≠ d → readReg r t = readReg r s

/-- `i` answers a next state in which `x[d]` is a value that `P` holds of, `pc` is `p`, and nothing else has changed. -/
def WritesReg (i : Instr) (s : State) (d : Reg) (p : Word) (P : Word → Prop) : Prop :=
  ∃ t, exec i s = .next t ∧ t.pc = p ∧ P (readReg d t) ∧ SameRegsBut d s t ∧ SameControl s t ∧ SameMemory s t

/-- `i` answers a next state in which `pc` is `p`, and nothing else has changed. -/
def MovesPc (i : Instr) (s : State) (p : Word) : Prop :=
  ∃ t, exec i s = .next t ∧ t.pc = p ∧ SameRegs s t ∧ SameControl s t ∧ SameMemory s t

/-- The word `v` lies at the address `a` of a memory, in the byte order `e` (rules R42, R43). -/
def HoldsWord (e : Endian) (m : Memory) (a v : Word) : Prop :=
  match e with
  | .big => m.get a.toNat = some (v.extractLsb' 8 8) ∧ m.get (a.toNat + 1) = some (v.extractLsb' 0 8)
  | .little => m.get a.toNat = some (v.extractLsb' 0 8) ∧ m.get (a.toNat + 1) = some (v.extractLsb' 8 8)

/-- `t` is `s` with the word `v` stored at `a`: its two bytes, and `a` in `W`; every other byte, the image copy, EPC, the
halted mark and the parameters as before (rules R43, R53). -/
def StoresWord (a v : Word) (s t : State) : Prop :=
  HoldsWord s.cfg.endian t.mem a v ∧
  (∀ b, b ≠ a.toNat → b ≠ a.toNat + 1 → t.mem.get b = s.mem.get b) ∧
  (∀ b, t.imem.get b = s.imem.get b) ∧
  (∀ b, b ∈ t.stored ↔ b = a.toNat ∨ b ∈ s.stored) ∧
  SameControl s t

/-! ## Which registers an instruction names (spec/10_state.md rule R23) -/

/-- The table's column "reads". -/
def readSet : Instr → List Reg
  | .subi _ rs _ | .addi _ rs _ | .andni _ rs _ | .xori _ rs _ => [rs]
  | .roli _ rs _ | .slli _ rs _ | .rori _ rs _ | .srli _ rs _ => [rs]
  | .ld _ rs _ => [rs]
  | .st rd rs _ | .stu rd rs _ => [rs, rd]
  | .lbi _ _ => []
  | .slbi rs _ => [rs]
  | .beqz rs _ | .bnez rs _ | .bltz rs _ | .bgez rs _ => [rs]
  | .jr rs _ | .jalr rs _ => [rs]
  | .j _ | .jal _ => []
  | .add _ rs rt | .sub _ rs rt | .xor _ rs rt | .andn _ rs rt => [rs, rt]
  | .rol _ rs rt | .sll _ rs rt | .ror _ rs rt | .srl _ rs rt => [rs, rt]
  | .seq _ rs rt | .slt _ rs rt | .sle _ rs rt | .sco _ rs rt => [rs, rt]
  | .btr _ rs => [rs]
  | .halt | .nop | .siic _ | .rti => []

/-- The table's column "writes". -/
def writeSet : Instr → List Reg
  | .subi rd _ _ | .addi rd _ _ | .andni rd _ _ | .xori rd _ _ => [rd]
  | .roli rd _ _ | .slli rd _ _ | .rori rd _ _ | .srli rd _ _ => [rd]
  | .ld rd _ _ => [rd]
  | .st _ _ _ => []
  | .stu _ rs _ => [rs]
  | .lbi rs _ => [rs]
  | .slbi rs _ => [rs]
  | .beqz _ _ | .bnez _ _ | .bltz _ _ | .bgez _ _ => []
  | .jr _ _ => []
  | .jalr _ _ => [linkReg]
  | .j _ => []
  | .jal _ => [linkReg]
  | .add rd _ _ | .sub rd _ _ | .xor rd _ _ | .andn rd _ _ => [rd]
  | .rol rd _ _ | .sll rd _ _ | .ror rd _ _ | .srl rd _ _ => [rd]
  | .seq rd _ _ | .slt rd _ _ | .sle rd _ _ | .sco rd _ _ => [rd]
  | .btr rd _ => [rd]
  | .halt | .nop | .siic _ | .rti => []

/-! ## Where the pc goes (spec/10_state.md rule R27) -/

/-- The table of rule R27, for operands within their fields and the parameter `EXC_IMPLEMENTED` true. -/
def pcRule (i : Instr) (s : State) : Word :=
  match i with
  | .j disp | .jal disp => s.pc + 2 + BitVec.ofInt 16 disp
  | .jr rs imm | .jalr rs imm => readReg rs s + BitVec.ofInt 16 imm
  | .beqz rs imm => if Word.u (readReg rs s) = 0 then s.pc + 2 + BitVec.ofInt 16 imm else s.pc + 2
  | .bnez rs imm => if Word.u (readReg rs s) = 0 then s.pc + 2 else s.pc + 2 + BitVec.ofInt 16 imm
  | .bltz rs imm => if Word.s (readReg rs s) < 0 then s.pc + 2 + BitVec.ofInt 16 imm else s.pc + 2
  | .bgez rs imm => if Word.s (readReg rs s) < 0 then s.pc + 2 else s.pc + 2 + BitVec.ofInt 16 imm
  | .siic _ => 0x0002
  | .rti => s.epc
  | .halt | .nop | .lbi _ _ | .slbi _ _ => s.pc + 2
  | .subi _ _ _ | .addi _ _ _ | .andni _ _ _ | .xori _ _ _ => s.pc + 2
  | .roli _ _ _ | .slli _ _ _ | .rori _ _ _ | .srli _ _ _ => s.pc + 2
  | .st _ _ _ | .ld _ _ _ | .stu _ _ _ => s.pc + 2
  | .btr _ _ | .rol _ _ _ | .sll _ _ _ | .ror _ _ _ | .srl _ _ _ => s.pc + 2
  | .add _ _ _ | .sub _ _ _ | .xor _ _ _ | .andn _ _ _ => s.pc + 2
  | .seq _ _ _ | .slt _ _ _ | .sle _ _ _ | .sco _ _ _ => s.pc + 2

/-! ## Invariants -/

/-- The state's data are in canonical form and agree with each other.
Every step keeps it; `State.afterReset` has it for every image in canonical form. -/
structure MemInv (s : State) : Prop where
  /-- `Mem` is in canonical form. -/
  memWf : s.mem.wf
  /-- The image copy is in canonical form. -/
  imemWf : s.imem.wf
  /-- `W` is a strictly rising list of even addresses. -/
  storedWf : s.stored.wf
  /-- A word of `W` has both its bytes in `Mem`. -/
  storedPresent : ∀ a ∈ s.stored, (s.mem.get a).isSome ∧ (s.mem.get (a + 1)).isSome
  /-- A byte of a word outside `W` is the image's. -/
  imageAgrees : ∀ a, a - a % 2 ∉ s.stored → s.mem.get a = s.imem.get a

/-- EPC holds an even address (rule R204). -/
def EpcEven (s : State) : Prop := s.epc.toNat % 2 = 0

/-! ## Runs -/

/-- `n` steps from `s` end in no fault and no refusal: they reach `t`. -/
def Reaches (n : Nat) (s t : State) : Prop := Host.Core.run core n s = .next t

/-- `n` steps from `s` meet no fault and no refusal. -/
def SafeRun (n : Nat) (s : State) : Prop := ∃ t, Reaches n s t

/-- The run from `s` ends, within `n` steps, in the final state `t` (rule R200). -/
def Finishes (n : Nat) (s t : State) : Prop := Reaches n s t ∧ t.halted = true

/-! ## Correspondence of states and outcomes -/

/-- Two outcomes correspond: next states that `R` relates, or the same fault, or the same refusal. -/
def OutcomeRel (R : State → State → Prop) : Result → Result → Prop
  | .next s, .next t => R s t
  | .fault f, .fault g => f = g
  | .refused r, .refused q => r = q
  | .next _, .fault _ | .next _, .refused _ => False
  | .fault _, .next _ | .fault _, .refused _ => False
  | .refused _, .next _ | .refused _, .fault _ => False

/-- The other byte order. -/
def otherEndian : Endian → Endian
  | .big => .little
  | .little => .big

/-- Each word of `n` is that of `m` with its two bytes exchanged. -/
def BytesExchanged (m n : Memory) : Prop :=
  ∀ a, a % 2 = 0 → n.get a = m.get (a + 1) ∧ n.get (a + 1) = m.get a

/-- The same machine under the other byte order, holding the same words (rule R45). -/
def EndianMirror (s t : State) : Prop :=
  t.cfg = { s.cfg with endian := otherEndian s.cfg.endian } ∧
  t.regs = s.regs ∧ t.pc = s.pc ∧ t.epc = s.epc ∧ t.stored = s.stored ∧ t.halted = s.halted ∧
  BytesExchanged s.mem t.mem ∧ BytesExchanged s.imem t.imem

/-- The same state under another `SMC`. -/
def withSmc (p : Smc) (s : State) : State := { s with cfg := { s.cfg with smc := p } }

/-- The same state under another `MEM_INIT`. -/
def withMemInit (z : MemInit) (s : State) : State := { s with cfg := { s.cfg with memInit := z } }

/-- The same state under another `EXC_IMPLEMENTED`. -/
def withExc (b : Bool) (s : State) : State := { s with cfg := { s.cfg with excImplemented := b } }

/-- All of two states but the registers outside `rs` is the same. -/
def AgreeOn (rs : List Reg) (s t : State) : Prop :=
  (∀ r ∈ rs, readReg r t = readReg r s) ∧ t.pc = s.pc ∧ SameControl s t ∧
  t.mem = s.mem ∧ t.imem = s.imem ∧ t.stored = s.stored

end Sys2Proof.Machine
end

