-- ==== Sys2Proof/Certificates/Slice0/Obligations.lean ====
section
/-! DEFINITION. The statements, from the numbered rules of spec/, file by file. -/

open Sys2Proof Sys2Proof.Machine

/-! ## Encoding (spec/30_encoding.md) -/

/-- Sample words of spec/95_test_vectors.md section 3, one or more per format (rules R61 to R64, R70). -/
def Obligations.SampleWordsDecode : Prop :=
  decode 0x07FF = .halt ∧ decode 0x17FF = .siic 7 ∧ decode 0x2400 = .j (-1024) ∧ decode 0x2FFF = .jr 7 (-1) ∧
  decode 0x5555 = .andni 2 5 21 ∧ decode 0x9FFF = .stu 7 7 (-1) ∧ decode 0xC94C = .btr 3 1 ∧
  decode 0xD7FF = .srl 7 7 7 ∧ decode 0xD801 = .sub 0 0 0 ∧ decode 0xFFFF = .sco 7 7 7

/-- No operand of an encoding is dropped: decoding the word of a well-formed instruction gives it back. -/
def Obligations.DecodeOfEncode : Prop := ∀ i : Instr, i.WellFormed → decode (encode i) = i

/-- Rules R71, R73: decoding is total and gives a well-formed instruction, the ignored bits do not matter to it, the canonical
word has them 0, and SIIC's dummy register does not matter to what it does. -/
def Obligations.IgnoredBitsDoNotMatter : Prop :=
  (∀ w : Word, (decode w).WellFormed ∧ encode (decode w) = w &&& significantBits w ∧
    ∀ v : Word, v &&& significantBits w = w &&& significantBits w → decode v = decode w) ∧
  ∀ (r q : Reg) (s : State), exec (.siic r) s = exec (.siic q) s

/-! ## I-format 1 ALU and shift instructions (spec/41_alu_immediate.md) -/

/-- Rule R110: the immediate minus Rs, modulo 2^16. -/
def Obligations.SubiSubtractsRegisterFromImmediate : Prop :=
  RowDecodes 0xF800 0x4000 (fun w => .subi (fieldReg 5 w) (fieldReg 8 w) (fieldInt 4 0 w)) ∧
  ∀ (rd rs : Reg) (imm : Int) (s : State), InSimm5 imm →
    WritesReg (.subi rd rs imm) s rd (s.pc + 2) fun v => Word.u v = (imm - Word.u (readReg rs s)) % 65536

/-- Rule R111: Rs plus the immediate, modulo 2^16. -/
def Obligations.AddiAddsImmediate : Prop :=
  RowDecodes 0xF800 0x4800 (fun w => .addi (fieldReg 5 w) (fieldReg 8 w) (fieldInt 4 0 w)) ∧
  ∀ (rd rs : Reg) (imm : Int) (s : State), InSimm5 imm →
    WritesReg (.addi rd rs imm) s rd (s.pc + 2) fun v => Word.u v = (Word.u (readReg rs s) + imm) % 65536

/-- Rule R112: the bits set in the zero-extended immediate are cleared. -/
def Obligations.AndniClearsImmediateBits : Prop :=
  RowDecodes 0xF800 0x5000 (fun w => .andni (fieldReg 5 w) (fieldReg 8 w) (fieldNat 4 0 w)) ∧
  ∀ (rd rs : Reg) (imm : Nat) (s : State), InUimm5 imm →
    WritesReg (.andni rd rs imm) s rd (s.pc + 2) fun v =>
      ∀ i, v.getLsbD i = ((readReg rs s).getLsbD i && !imm.testBit i)

/-- Rule R113: the bits set in the zero-extended immediate are flipped. -/
def Obligations.XoriFlipsImmediateBits : Prop :=
  RowDecodes 0xF800 0x5800 (fun w => .xori (fieldReg 5 w) (fieldReg 8 w) (fieldNat 4 0 w)) ∧
  ∀ (rd rs : Reg) (imm : Nat) (s : State), InUimm5 imm →
    WritesReg (.xori rd rs imm) s rd (s.pc + 2) fun v =>
      ∀ i, v.getLsbD i = ((readReg rs s).getLsbD i ^^ imm.testBit i)

/-- Rule R114: `rol(x[s], n)[(i + n) mod 16] = x[s][i]`. -/
def Obligations.RoliRotatesLeft : Prop :=
  RowDecodes 0xF800 0xA000 (fun w => .roli (fieldReg 5 w) (fieldReg 8 w) (fieldNat 3 0 w)) ∧
  ∀ (rd rs : Reg) (n : Nat) (s : State), InShamt n →
    WritesReg (.roli rd rs n) s rd (s.pc + 2) fun v =>
      ∀ i, i < 16 → v.getLsbD ((i + n) % 16) = (readReg rs s).getLsbD i

/-- Rule R115: `x[s] << n`, zeros shifted in, the bits shifted out lost. -/
def Obligations.SlliShiftsLeft : Prop :=
  RowDecodes 0xF800 0xA800 (fun w => .slli (fieldReg 5 w) (fieldReg 8 w) (fieldNat 3 0 w)) ∧
  ∀ (rd rs : Reg) (n : Nat) (s : State), InShamt n →
    WritesReg (.slli rd rs n) s rd (s.pc + 2) fun v => v.toNat = (readReg rs s).toNat * 2 ^ n % 65536

/-- Rule R116: `ror(x[s], n)[i] = x[s][(i + n) mod 16]`. -/
def Obligations.RoriRotatesRight : Prop :=
  RowDecodes 0xF800 0xB000 (fun w => .rori (fieldReg 5 w) (fieldReg 8 w) (fieldNat 3 0 w)) ∧
  ∀ (rd rs : Reg) (n : Nat) (s : State), InShamt n →
    WritesReg (.rori rd rs n) s rd (s.pc + 2) fun v =>
      ∀ i, i < 16 → v.getLsbD i = (readReg rs s).getLsbD ((i + n) % 16)

/-- Rule R117: `x[s] >> n`, logical. -/
def Obligations.SrliShiftsRight : Prop :=
  RowDecodes 0xF800 0xB800 (fun w => .srli (fieldReg 5 w) (fieldReg 8 w) (fieldNat 3 0 w)) ∧
  ∀ (rd rs : Reg) (n : Nat) (s : State), InShamt n →
    WritesReg (.srli rd rs n) s rd (s.pc + 2) fun v => v.toNat = (readReg rs s).toNat / 2 ^ n

/-! ## Loads and stores (spec/42_load_store.md) -/

/-- Rules R130, R133, R43, R46: ST stores `x[d]` at the even effective address and changes no register; an odd address
stops it. That a register never written holds a value is the model's choice (log 1). -/
def Obligations.StStoresWord : Prop :=
  RowDecodes 0xF800 0x8000 (fun w => .st (fieldReg 5 w) (fieldReg 8 w) (fieldInt 4 0 w)) ∧
  ∀ (rd rs : Reg) (imm : Int) (s : State), InSimm5 imm →
    effAddr (readReg rs s) imm = readReg rs s + BitVec.ofInt 16 imm ∧
    ((effAddr (readReg rs s) imm).toNat % 2 = 0 →
      ∃ t, exec (.st rd rs imm) s = .next t ∧ t.pc = s.pc + 2 ∧ SameRegs s t ∧
        StoresWord (effAddr (readReg rs s) imm) (readReg rd s) s t) ∧
    ((effAddr (readReg rs s) imm).toNat % 2 = 1 →
      exec (.st rd rs imm) s = .fault (.misaligned (effAddr (readReg rs s) imm)))

/-- Rules R131, R133, R42, R46: LD reads the word at the even effective address; an odd address stops it.
That a register never written holds a value is the model's choice (log 1). -/
def Obligations.LdLoadsWord : Prop :=
  RowDecodes 0xF800 0x8800 (fun w => .ld (fieldReg 5 w) (fieldReg 8 w) (fieldInt 4 0 w)) ∧
  ∀ (rd rs : Reg) (imm : Int) (s : State), InSimm5 imm →
    effAddr (readReg rs s) imm = readReg rs s + BitVec.ofInt 16 imm ∧
    (∀ v : Word, (effAddr (readReg rs s) imm).toNat % 2 = 0 →
      HoldsWord s.cfg.endian s.mem (effAddr (readReg rs s) imm) v →
      WritesReg (.ld rd rs imm) s rd (s.pc + 2) fun u => u = v) ∧
    ((effAddr (readReg rs s) imm).toNat % 2 = 1 →
      exec (.ld rd rs imm) s = .fault (.misaligned (effAddr (readReg rs s) imm)))

/-- Rules R132, R133, R43, R46: STU stores the old `x[d]` at the even effective address and sets `x[s]` to that address,
also where Rd is Rs; an odd address stops it with nothing written.
That a register never written holds a value is the model's choice (log 1). -/
def Obligations.StuStoresWordAndUpdatesBase : Prop :=
  RowDecodes 0xF800 0x9800 (fun w => .stu (fieldReg 5 w) (fieldReg 8 w) (fieldInt 4 0 w)) ∧
  ∀ (rd rs : Reg) (imm : Int) (s : State), InSimm5 imm →
    effAddr (readReg rs s) imm = readReg rs s + BitVec.ofInt 16 imm ∧
    ((effAddr (readReg rs s) imm).toNat % 2 = 0 →
      ∃ t, exec (.stu rd rs imm) s = .next t ∧ t.pc = s.pc + 2 ∧
        readReg rs t = effAddr (readReg rs s) imm ∧ SameRegsBut rs s t ∧
        StoresWord (effAddr (readReg rs s) imm) (readReg rd s) s t) ∧
    ((effAddr (readReg rs s) imm).toNat % 2 = 1 →
      exec (.stu rd rs imm) s = .fault (.misaligned (effAddr (readReg rs s) imm)))

/-- Rule R43: a word stored by ST is the word that a later LD of the same address gives, in any state whose two bytes there
are still those. -/
def Obligations.LoadGivesStoredWord : Prop :=
  ∀ (rd rs qd qs : Reg) (imm jmm : Int) (s t u : State), InSimm5 imm → InSimm5 jmm →
    exec (.st rd rs imm) s = .next t → u.cfg = t.cfg →
    effAddr (readReg qs u) jmm = effAddr (readReg rs s) imm →
    u.mem.get (effAddr (readReg rs s) imm).toNat = t.mem.get (effAddr (readReg rs s) imm).toNat →
    u.mem.get ((effAddr (readReg rs s) imm).toNat + 1) = t.mem.get ((effAddr (readReg rs s) imm).toNat + 1) →
    WritesReg (.ld qd qs jmm) u qd (u.pc + 2) fun v => v = readReg rd s

/-! ## I-format 2 byte-immediate loads (spec/43_byte_immediate.md) -/

/-- Rule R140: the sign-extended immediate. -/
def Obligations.LbiLoadsSignedByte : Prop :=
  RowDecodes 0xF800 0xC000 (fun w => .lbi (fieldReg 8 w) (fieldInt 7 0 w)) ∧
  ∀ (rs : Reg) (imm : Int) (s : State), InSimm8 imm →
    WritesReg (.lbi rs imm) s rs (s.pc + 2) fun v => Word.s v = imm

/-- Rule R141: `{x[s][7:0], imm8}`. That a register never written holds a value is the model's choice (log 1). -/
def Obligations.SlbiShiftsInByte : Prop :=
  RowDecodes 0xF800 0x9000 (fun w => .slbi (fieldReg 8 w) (fieldNat 7 0 w)) ∧
  ∀ (rs : Reg) (imm : Nat) (s : State), InUimm8 imm →
    WritesReg (.slbi rs imm) s rs (s.pc + 2) fun v => v.toNat = (readReg rs s).toNat % 256 * 256 + imm

/-! ## Jumps (spec/40_jumps.md, spec/44_jump_register.md) -/

/-- Rule R100: the target is `pc + 2` plus the displacement; with an odd displacement the J completes and the next fetch
faults. -/
def Obligations.JumpAddsDisplacement : Prop :=
  RowDecodes 0xF800 0x2000 (fun w => .j (fieldInt 10 0 w)) ∧
  ∀ (disp : Int) (s : State), InDisp11 disp →
    MovesPc (.j disp) s (s.pc + 2 + BitVec.ofInt 16 disp) ∧
    (disp % 2 = 1 → s.pc.toNat % 2 = 0 → s.halted = false →
      ∃ t, exec (.j disp) s = .next t ∧ step t = .fault (.misaligned (s.pc + 2 + BitVec.ofInt 16 disp)))

/-- Rule R101: as J, and R7 is `pc + 2`, also where the next fetch faults. -/
def Obligations.JalLinksAndAddsDisplacement : Prop :=
  RowDecodes 0xF800 0x3000 (fun w => .jal (fieldInt 10 0 w)) ∧
  ∀ (disp : Int) (s : State), InDisp11 disp →
    WritesReg (.jal disp) s 7 (s.pc + 2 + BitVec.ofInt 16 disp) (fun v => v = s.pc + 2) ∧
    (disp % 2 = 1 → s.pc.toNat % 2 = 0 → s.halted = false →
      ∃ t, exec (.jal disp) s = .next t ∧ readReg 7 t = s.pc + 2 ∧
        step t = .fault (.misaligned (s.pc + 2 + BitVec.ofInt 16 disp)))

/-- Rule R150: the target is `x[s]` plus the immediate. That a register never written holds a value is the model's choice
(log 1). -/
def Obligations.JrJumpsToRegister : Prop :=
  RowDecodes 0xF800 0x2800 (fun w => .jr (fieldReg 8 w) (fieldInt 7 0 w)) ∧
  ∀ (rs : Reg) (imm : Int) (s : State), InSimm8 imm →
    MovesPc (.jr rs imm) s (readReg rs s + BitVec.ofInt 16 imm)

/-- Rule R151: the target is the old `x[s]` plus the immediate, also where Rs is R7, and R7 is `pc + 2`.
That a register never written holds a value is the model's choice (log 1). -/
def Obligations.JalrLinksAndJumpsToRegister : Prop :=
  RowDecodes 0xF800 0x3800 (fun w => .jalr (fieldReg 8 w) (fieldInt 7 0 w)) ∧
  ∀ (rs : Reg) (imm : Int) (s : State), InSimm8 imm →
    WritesReg (.jalr rs imm) s 7 (readReg rs s + BitVec.ofInt 16 imm) fun v => v = s.pc + 2

/-! ## Conditional branches (spec/45_branches.md) -/

/-- Rules R160, R161: taken where `x[s]` is not zero, and where it is zero. -/
def Obligations.BnezBeqzTestZero : Prop :=
  RowDecodes 0xF800 0x6000 (fun w => .bnez (fieldReg 8 w) (fieldInt 7 0 w)) ∧
  RowDecodes 0xF800 0x6800 (fun w => .beqz (fieldReg 8 w) (fieldInt 7 0 w)) ∧
  ∀ (rs : Reg) (imm : Int) (s : State), InSimm8 imm →
    (Word.u (readReg rs s) ≠ 0 →
      MovesPc (.bnez rs imm) s (s.pc + 2 + BitVec.ofInt 16 imm) ∧ MovesPc (.beqz rs imm) s (s.pc + 2)) ∧
    (Word.u (readReg rs s) = 0 →
      MovesPc (.bnez rs imm) s (s.pc + 2) ∧ MovesPc (.beqz rs imm) s (s.pc + 2 + BitVec.ofInt 16 imm))

/-- Rules R162, R163: taken where `x[s]`, read as a two's-complement number, is below zero, and where it is not. -/
def Obligations.BltzBgezTestSign : Prop :=
  RowDecodes 0xF800 0x7000 (fun w => .bltz (fieldReg 8 w) (fieldInt 7 0 w)) ∧
  RowDecodes 0xF800 0x7800 (fun w => .bgez (fieldReg 8 w) (fieldInt 7 0 w)) ∧
  ∀ (rs : Reg) (imm : Int) (s : State), InSimm8 imm →
    (Word.s (readReg rs s) < 0 →
      MovesPc (.bltz rs imm) s (s.pc + 2 + BitVec.ofInt 16 imm) ∧ MovesPc (.bgez rs imm) s (s.pc + 2)) ∧
    (0 ≤ Word.s (readReg rs s) →
      MovesPc (.bltz rs imm) s (s.pc + 2) ∧ MovesPc (.bgez rs imm) s (s.pc + 2 + BitVec.ofInt 16 imm))

/-! ## R-format ALU and shift instructions (spec/46_alu_register.md) -/

/-- Rule R171: modulo 2^16, no trap (R170). -/
def Obligations.AddAddsRegisters : Prop :=
  RowDecodes 0xF803 0xD800 (fun w => .add (fieldReg 2 w) (fieldReg 8 w) (fieldReg 5 w)) ∧
  ∀ (rd rs rt : Reg) (s : State),
    WritesReg (.add rd rs rt) s rd (s.pc + 2) fun v =>
      Word.u v = (Word.u (readReg rs s) + Word.u (readReg rt s)) % 65536

/-- Rule R172: Rt minus Rs, modulo 2^16. -/
def Obligations.SubSubtractsRsFromRt : Prop :=
  RowDecodes 0xF803 0xD801 (fun w => .sub (fieldReg 2 w) (fieldReg 8 w) (fieldReg 5 w)) ∧
  ∀ (rd rs rt : Reg) (s : State),
    WritesReg (.sub rd rs rt) s rd (s.pc + 2) fun v =>
      Word.u v = (Word.u (readReg rt s) - Word.u (readReg rs s)) % 65536

/-- Rule R173. -/
def Obligations.XorIsBitwise : Prop :=
  RowDecodes 0xF803 0xD802 (fun w => .xor (fieldReg 2 w) (fieldReg 8 w) (fieldReg 5 w)) ∧
  ∀ (rd rs rt : Reg) (s : State),
    WritesReg (.xor rd rs rt) s rd (s.pc + 2) fun v =>
      ∀ i, v.getLsbD i = ((readReg rs s).getLsbD i ^^ (readReg rt s).getLsbD i)

/-- Rule R174: the bits set in Rt are cleared in the copy of Rs. -/
def Obligations.AndnClearsBitsOfRt : Prop :=
  RowDecodes 0xF803 0xD803 (fun w => .andn (fieldReg 2 w) (fieldReg 8 w) (fieldReg 5 w)) ∧
  ∀ (rd rs rt : Reg) (s : State),
    WritesReg (.andn rd rs rt) s rd (s.pc + 2) fun v =>
      ∀ i, v.getLsbD i = ((readReg rs s).getLsbD i && !(readReg rt s).getLsbD i)

/-- Rule R175: by the low four bits of Rt. -/
def Obligations.RolRotatesLeft : Prop :=
  RowDecodes 0xF803 0xD000 (fun w => .rol (fieldReg 2 w) (fieldReg 8 w) (fieldReg 5 w)) ∧
  ∀ (rd rs rt : Reg) (s : State),
    WritesReg (.rol rd rs rt) s rd (s.pc + 2) fun v =>
      ∀ i, i < 16 → v.getLsbD ((i + (readReg rt s).toNat % 16) % 16) = (readReg rs s).getLsbD i

/-- Rule R176: by the low four bits of Rt. -/
def Obligations.SllShiftsLeft : Prop :=
  RowDecodes 0xF803 0xD001 (fun w => .sll (fieldReg 2 w) (fieldReg 8 w) (fieldReg 5 w)) ∧
  ∀ (rd rs rt : Reg) (s : State),
    WritesReg (.sll rd rs rt) s rd (s.pc + 2) fun v =>
      v.toNat = (readReg rs s).toNat * 2 ^ ((readReg rt s).toNat % 16) % 65536

/-- Rule R177: by the low four bits of Rt. -/
def Obligations.RorRotatesRight : Prop :=
  RowDecodes 0xF803 0xD002 (fun w => .ror (fieldReg 2 w) (fieldReg 8 w) (fieldReg 5 w)) ∧
  ∀ (rd rs rt : Reg) (s : State),
    WritesReg (.ror rd rs rt) s rd (s.pc + 2) fun v =>
      ∀ i, i < 16 → v.getLsbD i = (readReg rs s).getLsbD ((i + (readReg rt s).toNat % 16) % 16)

/-- Rule R178: logical, by the low four bits of Rt. -/
def Obligations.SrlShiftsRight : Prop :=
  RowDecodes 0xF803 0xD003 (fun w => .srl (fieldReg 2 w) (fieldReg 8 w) (fieldReg 5 w)) ∧
  ∀ (rd rs rt : Reg) (s : State),
    WritesReg (.srl rd rs rt) s rd (s.pc + 2) fun v =>
      v.toNat = (readReg rs s).toNat / 2 ^ ((readReg rt s).toNat % 16)

/-- Rule R179: `x[d][i] <- x[s][15 - i]`; the Rt field and the extension are ignored. -/
def Obligations.BtrReversesBits : Prop :=
  RowDecodes 0xF800 0xC800 (fun w => .btr (fieldReg 2 w) (fieldReg 8 w)) ∧
  ∀ (rd rs : Reg) (s : State),
    WritesReg (.btr rd rs) s rd (s.pc + 2) fun v =>
      ∀ i, i < 16 → v.getLsbD i = (readReg rs s).getLsbD (15 - i)

/-! ## Set instructions (spec/47_set.md) -/

/-- Rule R190: all 16 bits compared. -/
def Obligations.SeqSetsOnEqual : Prop :=
  RowDecodes 0xF800 0xE000 (fun w => .seq (fieldReg 2 w) (fieldReg 8 w) (fieldReg 5 w)) ∧
  ∀ (rd rs rt : Reg) (s : State),
    WritesReg (.seq rd rs rt) s rd (s.pc + 2) fun v =>
      v = if Word.u (readReg rs s) = Word.u (readReg rt s) then 0x0001 else 0x0000

/-- Rule R191: the signed readings compared as integers. -/
def Obligations.SltSetsOnLess : Prop :=
  RowDecodes 0xF800 0xE800 (fun w => .slt (fieldReg 2 w) (fieldReg 8 w) (fieldReg 5 w)) ∧
  ∀ (rd rs rt : Reg) (s : State),
    WritesReg (.slt rd rs rt) s rd (s.pc + 2) fun v =>
      v = if Word.s (readReg rs s) < Word.s (readReg rt s) then 0x0001 else 0x0000

/-- Rule R192: as SLT, with equality true. -/
def Obligations.SleSetsOnLessOrEqual : Prop :=
  RowDecodes 0xF800 0xF000 (fun w => .sle (fieldReg 2 w) (fieldReg 8 w) (fieldReg 5 w)) ∧
  ∀ (rd rs rt : Reg) (s : State),
    WritesReg (.sle rd rs rt) s rd (s.pc + 2) fun v =>
      v = if Word.s (readReg rs s) ≤ Word.s (readReg rt s) then 0x0001 else 0x0000

/-- Rule R193: the unsigned sum carries out of bit 15. -/
def Obligations.ScoSetsOnCarryOut : Prop :=
  RowDecodes 0xF800 0xF800 (fun w => .sco (fieldReg 2 w) (fieldReg 8 w) (fieldReg 5 w)) ∧
  ∀ (rd rs rt : Reg) (s : State),
    WritesReg (.sco rd rs rt) s rd (s.pc + 2) fun v =>
      v = if 65536 ≤ Word.u (readReg rs s) + Word.u (readReg rt s) then 0x0001 else 0x0000

/-! ## Special instructions and the exception (spec/48_special.md, spec/60_exceptions.md) -/

/-- Rule R200: HALT sets `halted`, leaves the pc at the instruction after it, and no later step changes anything. -/
def Obligations.HaltEndsTheRun : Prop :=
  RowDecodes 0xF800 0x0000 (fun _ => .halt) ∧
  ∀ s : State, ∃ t, exec .halt s = .next t ∧ t.halted = true ∧ t.pc = s.pc + 2 ∧ SameRegs s t ∧ t.epc = s.epc ∧
    t.cfg = s.cfg ∧ SameMemory s t ∧ ∀ n, Finishes n t t

/-- Rule R201: NOP changes the pc only. -/
def Obligations.NopAdvances : Prop :=
  RowDecodes 0xF800 0x0800 (fun _ => .nop) ∧ ∀ s : State, MovesPc .nop s (s.pc + 2)

/-- Rules R203, R212: SIIC takes the exception: EPC is `pc + 2`, the pc is 0x0002, and nothing else changes.
A SIIC in the handler of another does the same, and the outer return address is lost (R215). -/
def Obligations.SiicTakesTheException : Prop :=
  RowDecodes 0xF800 0x1000 (fun w => .siic (fieldReg 8 w)) ∧
  ∀ (rs : Reg) (s : State), s.cfg.excImplemented = true →
    ∃ t, exec (.siic rs) s = .next t ∧ t.epc = s.pc + 2 ∧ t.pc = 0x0002 ∧
      SameRegs s t ∧ SameMemory s t ∧ t.halted = s.halted ∧ t.cfg = s.cfg

/-- Rule R217: RTI sets the pc to EPC and restores nothing else; EPC keeps its value, and execution resumes after the SIIC
that wrote it. That EPC holds a value before the first SIIC, so that RTI completes there, is the model's choice (log 1), where
R204 and R242 stop. -/
def Obligations.RtiReturnsFromTheException : Prop :=
  RowDecodes 0xF800 0x1800 (fun _ => .rti) ∧
  (∀ s : State, s.cfg.excImplemented = true → MovesPc .rti s s.epc) ∧
  ∀ (rs : Reg) (s t u : State), s.cfg.excImplemented = true → exec (.siic rs) s = .next t →
    u.cfg = t.cfg → u.epc = t.epc → MovesPc .rti u (s.pc + 2)

/-- Rule R205: while deferred, RTI is NOP and SIIC stops the model; an instruction that is neither does not depend on the
parameter. -/
def Obligations.DeferredSiicAndRti : Prop :=
  (∀ s : State, s.cfg.excImplemented = false → exec .rti s = exec .nop s ∧ MovesPc .rti s (s.pc + 2)) ∧
  (∀ (rs : Reg) (s : State), s.cfg.excImplemented = false → exec (.siic rs) s = .fault .unimplementedSiic) ∧
  ∀ (i : Instr) (b : Bool) (s : State), i ≠ .rti → (∀ r, i ≠ .siic r) →
    OutcomeRel (fun t u => u = withExc b t) (exec i s) (exec i (withExc b s))

/-! ## One step (spec/20_memory.md rules R42, R47, R53, R57, R58) -/

/-- Rule R57: a machine that has not halted, whose two bytes at the even pc hold the word `w` in the view the fetch reads,
runs what `w` decodes to. -/
def Obligations.StepRunsDecodedInstruction : Prop :=
  ∀ (w : Word) (i : Instr) (s : State), decode w = i → s.halted = false → s.pc.toNat % 2 = 0 →
    (s.cfg.smc = .refuse → s.pc.toNat ∉ s.stored ∧ HoldsWord s.cfg.endian s.mem s.pc w) →
    (s.cfg.smc = .coherent → HoldsWord s.cfg.endian s.mem s.pc w) →
    (s.cfg.smc = .split → HoldsWord s.cfg.endian s.imem s.pc w) →
    step s = exec i s

/-- Rule R47: an odd pc faults at the fetch, and an instruction makes an even pc odd only as a control transfer with an odd
displacement, or an odd register or EPC value. -/
def Obligations.OddPcFaultsAtTheFetch : Prop :=
  (∀ s : State, s.halted = false → s.pc.toNat % 2 = 1 → step s = .fault (.misaligned s.pc)) ∧
  ∀ (i : Instr) (s t : State), i.WellFormed → s.pc.toNat % 2 = 0 → exec i s = .next t → t.pc.toNat % 2 = 1 →
    (∃ d, (i = .j d ∨ i = .jal d) ∧ d % 2 = 1) ∨
    (∃ r d, (i = .bnez r d ∨ i = .beqz r d ∨ i = .bltz r d ∨ i = .bgez r d) ∧ d % 2 = 1) ∨
    (∃ r d, (i = .jr r d ∨ i = .jalr r d) ∧ (d % 2 = 1 ∨ (readReg r s).toNat % 2 = 1)) ∨
    (i = .rti ∧ s.epc.toNat % 2 = 1)

/-- Rule R53: a fetch from a word stored to since reset, under each value of `SMC`. -/
def Obligations.FetchOfStoredWordFollowsSmc : Prop :=
  ∀ s : State, s.halted = false → s.pc.toNat % 2 = 0 → s.pc.toNat ∈ s.stored →
    (s.cfg.smc = .refuse → step s = .fault (.codeModified s.pc)) ∧
    (∀ w, s.cfg.smc = .coherent → HoldsWord s.cfg.endian s.mem s.pc w → step s = exec (decode w) s) ∧
    (∀ w, s.cfg.smc = .split → HoldsWord s.cfg.endian s.imem s.pc w → step s = exec (decode w) s)

/-- Rule R58: under `MEM_INIT = unspecified` a word of which a byte has no value stops LD and, in the view it reads, the fetch;
under `zero` a word with neither byte written is 0x0000 to LD, and HALT to the fetch. Under `refuse` the fetch is of a word
outside `W`. That a word with one byte written counts as unwritten is the model's choice (log 19). -/
def Obligations.UnwrittenWordFollowsMemInit : Prop :=
  (∀ (rd rs : Reg) (imm : Int) (s : State), InSimm5 imm → (effAddr (readReg rs s) imm).toNat % 2 = 0 →
    (s.cfg.memInit = .unspecified →
      s.mem.get (effAddr (readReg rs s) imm).toNat = none ∨ s.mem.get ((effAddr (readReg rs s) imm).toNat + 1) = none →
      exec (.ld rd rs imm) s = .fault (.unspecifiedRead (effAddr (readReg rs s) imm))) ∧
    (s.cfg.memInit = .zero →
      s.mem.get (effAddr (readReg rs s) imm).toNat = none → s.mem.get ((effAddr (readReg rs s) imm).toNat + 1) = none →
      WritesReg (.ld rd rs imm) s rd (s.pc + 2) fun v => v = 0x0000)) ∧
  ∀ s : State, s.halted = false → s.pc.toNat % 2 = 0 →
    (s.cfg.memInit = .unspecified →
      (s.cfg.smc = .refuse → s.pc.toNat ∉ s.stored →
        s.mem.get s.pc.toNat = none ∨ s.mem.get (s.pc.toNat + 1) = none → step s = .fault (.unspecifiedRead s.pc)) ∧
      (s.cfg.smc = .coherent →
        s.mem.get s.pc.toNat = none ∨ s.mem.get (s.pc.toNat + 1) = none → step s = .fault (.unspecifiedRead s.pc)) ∧
      (s.cfg.smc = .split →
        s.imem.get s.pc.toNat = none ∨ s.imem.get (s.pc.toNat + 1) = none → step s = .fault (.unspecifiedRead s.pc))) ∧
    (s.cfg.memInit = .zero →
      (s.cfg.smc = .refuse → s.pc.toNat ∉ s.stored →
        s.mem.get s.pc.toNat = none → s.mem.get (s.pc.toNat + 1) = none → step s = exec .halt s) ∧
      (s.cfg.smc = .coherent →
        s.mem.get s.pc.toNat = none → s.mem.get (s.pc.toNat + 1) = none → step s = exec .halt s) ∧
      (s.cfg.smc = .split →
        s.imem.get s.pc.toNat = none → s.imem.get (s.pc.toNat + 1) = none → step s = exec .halt s))

/-- The host's placing of one instruction word (log 13): from every state with an even pc, the next step runs what the word
decodes to, and the registers, pc, EPC and parameters are as they were. -/
def Obligations.PlacedWordRunsNext : Prop :=
  ∀ (s : State) (w : Nat), w < 65536 → s.pc.toNat % 2 = 0 →
    decodeTableWord 16 w = some (decode (BitVec.ofNat 16 w)) ∧
    step (s.withFetchWord 16 w) = exec (decode (BitVec.ofNat 16 w)) (s.withFetchWord 16 w) ∧
    (s.withFetchWord 16 w).regs = s.regs ∧ (s.withFetchWord 16 w).pc = s.pc ∧
    (s.withFetchWord 16 w).epc = s.epc ∧ (s.withFetchWord 16 w).cfg = s.cfg

/-! ## Whole-machine rules (spec/10_state.md) -/

/-- Rule R23: an instruction's outcome depends on the registers of the table's column "reads" only, and it writes those of
the column "writes" only. -/
def Obligations.RegistersReadAndWrittenAreThoseNamed : Prop :=
  (∀ (i : Instr) (s t : State) (r : Reg), exec i s = .next t → r ∉ writeSet i → readReg r t = readReg r s) ∧
  ∀ (i : Instr) (s u : State), AgreeOn (readSet i) s u → OutcomeRel (AgreeOn (writeSet i)) (exec i s) (exec i u)

/-- Rule R27: the pc after each instruction. -/
def Obligations.PcAdvancesByTheTable : Prop :=
  ∀ (i : Instr) (s t : State), i.WellFormed → s.cfg.excImplemented = true → exec i s = .next t → t.pc = pcRule i s

/-- Rule R30: EPC is written only by SIIC and read only by RTI. -/
def Obligations.EpcIsWrittenBySiicAndReadByRti : Prop :=
  (∀ (i : Instr) (s t : State), (∀ r, i ≠ .siic r) → exec i s = .next t → t.epc = s.epc) ∧
  ∀ (i : Instr) (v : Word) (s : State), i ≠ .rti →
    OutcomeRel (fun t u => setEpc 0 u = setEpc 0 t) (exec i s) (exec i (setEpc v s))

/-- Rule R32: `halted` is false from reset and becomes true by HALT only; while it is true no state changes, in any number of
steps, so a finished run stays finished in the same state. -/
def Obligations.HaltedIsFinal : Prop :=
  (∀ (c : Config) (regs : Vector Word 8) (epc : Word) (image : Memory),
    (State.afterReset c regs epc image).halted = false) ∧
  (∀ (i : Instr) (s t : State), exec i s = .next t → (t.halted = true ↔ s.halted = true ∨ i = .halt)) ∧
  (∀ (n : Nat) (s : State), s.halted = true → Reaches n s s) ∧
  ∀ (n m : Nat) (s t : State), Finishes n s t → n ≤ m → Finishes m s t

/-- Rules R33, R53: memory and the set `W` are changed by ST and STU only; the image copy and the parameters are changed by
nothing, in any number of steps. -/
def Obligations.OnlyStoresChangeMemory : Prop :=
  (∀ (i : Instr) (s t : State), (∀ d r k, i ≠ .st d r k ∧ i ≠ .stu d r k) → exec i s = .next t →
    t.mem = s.mem ∧ t.stored = s.stored) ∧
  ∀ (n : Nat) (s t : State), Reaches n s t → t.imem = s.imem ∧ t.cfg = s.cfg

/-- Rules R210, R216: no step is refused, and an instruction stops only as a misaligned access, as an unspecified read of
memory, or as a deferred SIIC. That no register read stops is the model's choice (log 1). -/
def Obligations.StopsAreThoseListed : Prop :=
  (∀ (s : State) (q : Refusal), step s ≠ .refused q) ∧
  ∀ (i : Instr) (s : State) (f : Fault), exec i s = .fault f →
    (∃ rd rs imm, (i = .st rd rs imm ∨ i = .ld rd rs imm ∨ i = .stu rd rs imm) ∧
      f = .misaligned (effAddr (readReg rs s) imm) ∧ (effAddr (readReg rs s) imm).toNat % 2 = 1) ∨
    (∃ rd rs imm, i = .ld rd rs imm ∧ f = .unspecifiedRead (effAddr (readReg rs s) imm) ∧
      (effAddr (readReg rs s) imm).toNat % 2 = 0 ∧ s.cfg.memInit = .unspecified) ∨
    (∃ rs, i = .siic rs ∧ f = .unimplementedSiic ∧ s.cfg.excImplemented = false)

/-! ## Invariants and reset (spec/70_reset_and_hazards.md) -/

/-- The state after reset is consistent, for every image in canonical form, and EPC is even where the value it is given is.
EPC is zero in `State.reset` by the model's choice (log 1). -/
def Obligations.InvariantsHoldAfterReset : Prop :=
  (∀ (c : Config) (regs : Vector Word 8) (epc : Word) (image : Memory), image.wf →
    MemInv (State.afterReset c regs epc image) ∧
    (epc.toNat % 2 = 0 → EpcEven (State.afterReset c regs epc image))) ∧
  MemInv State.reset ∧ EpcEven State.reset

/-- Every step keeps memory, the image copy and `W` in canonical form and in agreement. -/
def Obligations.StepKeepsMemoryConsistent : Prop :=
  ∀ s t : State, MemInv s → step s = .next t → MemInv t

/-- Rule R204: EPC written by a SIIC is even, because a SIIC at an odd address is never fetched; so an even EPC stays even. -/
def Obligations.StepKeepsEpcEven : Prop :=
  ∀ s t : State, EpcEven s → step s = .next t → EpcEven t

/-- Rules R240, R244: the pc after reset is `RESET_PC`, 0x0000 by default, `halted` is false and `W` empty; the first
instruction executed is the word of the image there. -/
def Obligations.FirstInstructionIsAtResetPc : Prop :=
  State.reset.pc = 0x0000 ∧ State.reset.halted = false ∧ State.reset.stored = [] ∧
  ∀ (c : Config) (regs : Vector Word 8) (epc : Word) (image : Memory),
    (State.afterReset c regs epc image).pc = c.resetPc ∧ (State.afterReset c regs epc image).halted = false ∧
    (State.afterReset c regs epc image).stored = [] ∧
    ∀ w, c.resetPc.toNat % 2 = 0 → HoldsWord c.endian image c.resetPc w →
      step (State.afterReset c regs epc image) = exec (decode w) (State.afterReset c regs epc image)

/-! ## What does not depend on the parameters -/

/-- Rule R45: the byte order is not observable by any program: under the other order, with the same words in memory, every
step corresponds. -/
def Obligations.ByteOrderIsNotObservable : Prop :=
  ∀ s t : State, EndianMirror s t → OutcomeRel EndianMirror (step s) (step t)

/-- Rule R53: the three values of `SMC` agree on every step that `refuse` does not stop as modified code. -/
def Obligations.SmcValuesAgreeOnUnmodifiedCode : Prop :=
  ∀ (p : Smc) (s : State), MemInv s → s.cfg.smc = .refuse → (∀ a, step s ≠ .fault (.codeModified a)) →
    OutcomeRel (fun t u => u = withSmc p t) (step s) (step (withSmc p s))

/-- A step that completes under `MEM_INIT = unspecified` is the same step under `zero`: what is proved under the default holds
under the other. -/
def Obligations.UnspecifiedMemoryIsSafe : Prop :=
  ∀ s t : State, s.cfg.memInit = .unspecified → step s = .next t →
    step (withMemInit .zero s) = .next (withMemInit .zero t)
end

