-- ==== Sys2Proof/Laws/Decode.lean ====
section
/-! SUPPORT. The fields of a packed word, format by format (spec/30_encoding.md rules R61 to R65), and when a word has a
given opcode. -/

namespace Sys2Proof

/-- A bit of a placed field. -/
theorem getLsbD_place {n : Nat} (f : BitVec n) (lo i : Nat) :
    (place f lo).getLsbD i = (decide (i < 16) && decide (lo ≤ i) && f.getLsbD (i - lo)) := by
  simp only [place, BitVec.getLsbD_shiftLeft, BitVec.getLsbD_setWidth]
  by_cases h : i < 16
  · by_cases h' : lo ≤ i
    · simp [h, h', show ¬ i < lo by omega, show i - lo < 16 by omega]
    · simp [h', show i < lo by omega]
  · simp [h]

/-- Two field values of `n` bits are equal when their bits are. -/
theorem field_ext {n : Nat} {f g : BitVec n} (h : ∀ i, i < n → f.getLsbD i = g.getLsbD i) : f = g :=
  BitVec.eq_of_getLsbD_eq h

@[simp] theorem regBits_toFin (r : Reg) : (regBits r).toFin = r := rfl

/-! ## J-format -/

@[simp] theorem opcodeField_packJ (op : BitVec 5) (d : BitVec 11) : opcodeField (packJ op d) = op.toFin := by
  unfold opcodeField packJ
  congr 1
  refine field_ext fun i hi => ?_
  simp only [BitVec.getLsbD_extractLsb', BitVec.getLsbD_or, getLsbD_place]
  interval_cases i <;> simp

theorem disp_packJ (op : BitVec 5) (d : BitVec 11) : (packJ op d).extractLsb' 0 11 = d := by
  unfold packJ
  refine field_ext fun i hi => ?_
  simp only [BitVec.getLsbD_extractLsb', BitVec.getLsbD_or, getLsbD_place]
  interval_cases i <;> simp

@[simp] theorem disp11Field_packJ (op : BitVec 5) (d : BitVec 11) : disp11Field (packJ op d) = d.toInt := by
  rw [disp11Field, disp_packJ]

/-! ## I-format 1 -/

section
variable (op : BitVec 5) (s d : Reg) (imm : BitVec 5)

@[simp] theorem opcodeField_packI1 : opcodeField (packI1 op s d imm) = op.toFin := by
  unfold opcodeField packI1
  congr 1
  refine field_ext fun i hi => ?_
  simp only [BitVec.getLsbD_extractLsb', BitVec.getLsbD_or, getLsbD_place]
  interval_cases i <;> simp

@[simp] theorem sField_packI1 : sField (packI1 op s d imm) = s := by
  rw [sField, ← regBits_toFin s]
  unfold packI1
  congr 1
  refine field_ext fun i hi => ?_
  simp only [BitVec.getLsbD_extractLsb', BitVec.getLsbD_or, getLsbD_place]
  interval_cases i <;> simp

@[simp] theorem tField_packI1 : tField (packI1 op s d imm) = d := by
  rw [tField, ← regBits_toFin d]
  unfold packI1
  congr 1
  refine field_ext fun i hi => ?_
  simp only [BitVec.getLsbD_extractLsb', BitVec.getLsbD_or, getLsbD_place]
  interval_cases i <;> simp

theorem imm_packI1 : (packI1 op s d imm).extractLsb' 0 5 = imm := by
  unfold packI1
  refine field_ext fun i hi => ?_
  simp only [BitVec.getLsbD_extractLsb', BitVec.getLsbD_or, getLsbD_place]
  interval_cases i <;> simp

@[simp] theorem simm5Field_packI1 : simm5Field (packI1 op s d imm) = imm.toInt := by rw [simm5Field, imm_packI1]

@[simp] theorem uimm5Field_packI1 : uimm5Field (packI1 op s d imm) = imm.toNat := by rw [uimm5Field, imm_packI1]

/-- The shift amount is the low four bits of any word's imm5. -/
theorem shamtField_eq (w : Word) : shamtField w = uimm5Field w % 16 := by
  simp only [shamtField, uimm5Field, BitVec.extractLsb'_toNat]
  omega

@[simp] theorem shamtField_packI1 : shamtField (packI1 op s d imm) = imm.toNat % 16 := by
  rw [shamtField_eq, uimm5Field_packI1]
end

/-! ## I-format 2 -/

section
variable (op : BitVec 5) (s : Reg) (imm : BitVec 8)

@[simp] theorem opcodeField_packI2 : opcodeField (packI2 op s imm) = op.toFin := by
  unfold opcodeField packI2
  congr 1
  refine field_ext fun i hi => ?_
  simp only [BitVec.getLsbD_extractLsb', BitVec.getLsbD_or, getLsbD_place]
  interval_cases i <;> simp

@[simp] theorem sField_packI2 : sField (packI2 op s imm) = s := by
  rw [sField, ← regBits_toFin s]
  unfold packI2
  congr 1
  refine field_ext fun i hi => ?_
  simp only [BitVec.getLsbD_extractLsb', BitVec.getLsbD_or, getLsbD_place]
  interval_cases i <;> simp

theorem imm_packI2 : (packI2 op s imm).extractLsb' 0 8 = imm := by
  unfold packI2
  refine field_ext fun i hi => ?_
  simp only [BitVec.getLsbD_extractLsb', BitVec.getLsbD_or, getLsbD_place]
  interval_cases i <;> simp

@[simp] theorem simm8Field_packI2 : simm8Field (packI2 op s imm) = imm.toInt := by rw [simm8Field, imm_packI2]

@[simp] theorem uimm8Field_packI2 : uimm8Field (packI2 op s imm) = imm.toNat := by rw [uimm8Field, imm_packI2]
end

/-! ## R-format -/

section
variable (op : BitVec 5) (s t d : Reg) (ext : BitVec 2)

@[simp] theorem opcodeField_packR : opcodeField (packR op s t d ext) = op.toFin := by
  unfold opcodeField packR
  congr 1
  refine field_ext fun i hi => ?_
  simp only [BitVec.getLsbD_extractLsb', BitVec.getLsbD_or, getLsbD_place]
  interval_cases i <;> simp

@[simp] theorem sField_packR : sField (packR op s t d ext) = s := by
  rw [sField, ← regBits_toFin s]
  unfold packR
  congr 1
  refine field_ext fun i hi => ?_
  simp only [BitVec.getLsbD_extractLsb', BitVec.getLsbD_or, getLsbD_place]
  interval_cases i <;> simp

@[simp] theorem tField_packR : tField (packR op s t d ext) = t := by
  rw [tField, ← regBits_toFin t]
  unfold packR
  congr 1
  refine field_ext fun i hi => ?_
  simp only [BitVec.getLsbD_extractLsb', BitVec.getLsbD_or, getLsbD_place]
  interval_cases i <;> simp

@[simp] theorem dField_packR : dField (packR op s t d ext) = d := by
  rw [dField, ← regBits_toFin d]
  unfold packR
  congr 1
  refine field_ext fun i hi => ?_
  simp only [BitVec.getLsbD_extractLsb', BitVec.getLsbD_or, getLsbD_place]
  interval_cases i <;> simp

@[simp] theorem extField_packR : extField (packR op s t d ext) = ext.toFin := by
  unfold extField packR
  congr 1
  refine field_ext fun i hi => ?_
  simp only [BitVec.getLsbD_extractLsb', BitVec.getLsbD_or, getLsbD_place]
  interval_cases i <;> simp
end

/-! ## Operands within their fields -/

/-- The field of a signed operand in range reads back as the operand. -/
theorem toInt_ofInt_of_range {n : Nat} {imm : Int} (h0 : 0 < n) (hl : -(2 ^ (n - 1) : Int) ≤ imm)
    (hu : imm < 2 ^ (n - 1)) : (BitVec.ofInt n imm).toInt = imm := by
  have hp : (2 : Int) ^ n = 2 * 2 ^ (n - 1) := by rw [← pow_succ', Nat.sub_add_cancel h0]
  rw [BitVec.toInt_ofInt, Int.bmod_eq_of_le] <;> (push_cast; omega)

/-! ## Words by their opcode -/

/-- The opcode as a number. -/
theorem opcodeField_val (w : Word) : (opcodeField w).val = w.toNat / 2048 := by
  have := w.isLt
  simp only [opcodeField, BitVec.toFin_extractLsb', Fin.val_ofNat, Nat.shiftRight_eq_div_pow]
  omega

theorem extField_val (w : Word) : (extField w).val = w.toNat % 4 := by
  simp [extField, BitVec.toFin_extractLsb']

/-- The mask of an opcode keeps the opcode only. -/
theorem opcodeField_of_mask {w m : Word} (h : w &&& 0xF800 = m) : opcodeField w = opcodeField m := by
  subst h
  unfold opcodeField
  congr 1
  refine field_ext fun i hi => ?_
  simp only [BitVec.getLsbD_extractLsb', BitVec.getLsbD_and]
  interval_cases i <;> simp

/-- The mask of an extended opcode keeps the opcode and the extension. -/
theorem opcodeField_of_extMask {w m : Word} (h : w &&& 0xF803 = m) : opcodeField w = opcodeField m := by
  subst h
  unfold opcodeField
  congr 1
  refine field_ext fun i hi => ?_
  simp only [BitVec.getLsbD_extractLsb', BitVec.getLsbD_and]
  interval_cases i <;> simp

theorem extField_of_extMask {w m : Word} (h : w &&& 0xF803 = m) : extField w = extField m := by
  subst h
  unfold extField
  congr 1
  refine field_ext fun i hi => ?_
  simp only [BitVec.getLsbD_extractLsb', BitVec.getLsbD_and]
  interval_cases i <;> simp

end Sys2Proof
end

