-- ==== Sys2Proof/Laws/Memory.lean ====
section
/-! SUPPORT. What the memory and address-set operations do, and that each keeps the canonical form (spec/20_memory.md rules
R42, R43). -/

namespace Sys2Proof.Machine

/-! ## Bytes -/

theorem Memory.get_set (m : Memory) (a : Nat) (b : Byte) (k : Nat) :
    (m.set a b).get k = if k = a then some b else m.get k := by
  induction m with
  | nil => simp [Memory.set, Memory.get, eq_comm]
  | cons c m ih =>
    obtain ⟨j, d⟩ := c
    by_cases hlt : a < j
    · simp [Memory.set, Memory.get, hlt, eq_comm]
    · by_cases heq : a = j
      · subst heq
        by_cases hk : a = k <;> simp [Memory.set, Memory.get, hk, eq_comm]
      · by_cases hk : j = k
        · subst hk
          simp [Memory.set, Memory.get, hlt, heq, Ne.symm heq]
        · simp [Memory.set, Memory.get, hlt, heq, hk, ih]

@[simp] theorem Memory.get_set_self (m : Memory) (a : Nat) (b : Byte) : (m.set a b).get a = some b := by
  simp [Memory.get_set]

theorem Memory.get_set_of_ne (m : Memory) {a k : Nat} (h : k ≠ a) (b : Byte) : (m.set a b).get k = m.get k := by
  simp [Memory.get_set, h]

theorem Memory.mem_set {m : Memory} {a : Nat} {b : Byte} {x : Host.Cell} (h : x ∈ m.set a b) : x = (a, b) ∨ x ∈ m := by
  induction m with
  | nil => simpa [Memory.set] using h
  | cons c m ih =>
    obtain ⟨j, d⟩ := c
    simp only [Memory.set] at h
    split at h
    · simpa using h
    · split at h
      · rcases List.mem_cons.mp h with h | h <;> simp [h]
      · rcases List.mem_cons.mp h with h | h
        · simp [h]
        · rcases ih h with h | h <;> simp [h]

/-- Writing a byte keeps the canonical form. -/
theorem Memory.set_wf {m : Memory} (h : m.wf) {a : Nat} (ha : a < 65536) (b : Byte) : (m.set a b).wf := by
  refine ⟨?_, fun x hx => (Memory.mem_set hx).elim (fun e => e ▸ ha) (h.2 x)⟩
  obtain ⟨hp, -⟩ := h
  induction m with
  | nil => simp [Memory.set]
  | cons c m ih =>
    obtain ⟨j, d⟩ := c
    obtain ⟨hj, hm⟩ := List.pairwise_cons.mp hp
    simp only [Memory.set]
    split
    · rename_i hlt
      refine List.pairwise_cons.mpr ⟨fun x hx => ?_, hp⟩
      rcases List.mem_cons.mp hx with rfl | hx
      · exact hlt
      · exact hlt.trans (hj x hx)
    · split
      · rename_i heq
        subst heq
        exact List.pairwise_cons.mpr ⟨hj, hm⟩
      · rename_i hlt heq
        refine List.pairwise_cons.mpr ⟨fun x hx => ?_, ih hm⟩
        rcases Memory.mem_set hx with rfl | hx
        · exact lt_of_le_of_ne (not_lt.mp hlt) (Ne.symm heq)
        · exact hj x hx

/-! ## Words -/

theorem isOdd_iff (a : Word) : isOdd a = true ↔ a.toNat % 2 = 1 := by
  simp [isOdd, BitVec.getLsbD, Nat.testBit_zero]

theorem isOdd_eq_false_iff (a : Word) : isOdd a = false ↔ a.toNat % 2 = 0 := by
  rw [← Bool.not_eq_true, isOdd_iff]; omega

theorem Memory.get_setWord (e : Endian) (m : Memory) (a v : Word) (k : Nat) :
    (m.setWord e a v).get k =
      if k = a.toNat + 1 then some (highAddrByte e v)
      else if k = a.toNat then some (lowAddrByte e v) else m.get k := by
  simp only [Memory.setWord, Memory.get_set]

theorem Memory.setWord_wf {m : Memory} (h : m.wf) {a : Word} (ha : a.toNat % 2 = 0) (e : Endian) (v : Word) :
    (m.setWord e a v).wf :=
  Memory.set_wf (Memory.set_wf h a.isLt _) (by have := a.isLt; omega) _

/-- A word read back from the two bytes it was stored as. -/
@[simp] theorem joinWord_split (e : Endian) (v : Word) : joinWord e (lowAddrByte e v) (highAddrByte e v) = v := by
  cases e <;>
  · simp only [joinWord, lowAddrByte, highAddrByte]
    apply BitVec.eq_of_getLsbD_eq
    intro i hi
    rw [BitVec.getLsbD_append]
    by_cases h : i < 8
    · simp [h]
    · simp [h, show i - 8 < 8 by omega, show 8 + (i - 8) = i by omega]

theorem Memory.readByte_of_get {m : Memory} {a : Nat} {b : Byte} (h : m.get a = some b) (z : MemInit) :
    m.readByte z a = some b := by
  simp [Memory.readByte, h]

/-- `MemRead` of an even address whose two bytes have a value. -/
theorem readWord_ok {c : Config} {m : Memory} {a : Word} {b0 b1 : Byte} (ha : a.toNat % 2 = 0)
    (h0 : m.readByte c.memInit a.toNat = some b0) (h1 : m.readByte c.memInit (a.toNat + 1) = some b1) :
    readWord c m a = .ok (joinWord c.endian b0 b1) := by
  simp [readWord, (isOdd_eq_false_iff a).mpr ha, h0, h1]

/-- A word stored at an even address is the word read there. -/
theorem readWord_setWord (c : Config) (m : Memory) {a : Word} (ha : a.toNat % 2 = 0) (v : Word) :
    readWord c (m.setWord c.endian a v) a = .ok v := by
  rw [readWord_ok (b0 := lowAddrByte c.endian v) (b1 := highAddrByte c.endian v) ha, joinWord_split]
  · exact Memory.readByte_of_get (by simp [Memory.get_setWord]) _
  · exact Memory.readByte_of_get (by simp [Memory.get_setWord]) _

theorem loadImage_wf (e : Endian) (ws : List (Word × Word)) (h : ∀ p ∈ ws, p.1.toNat % 2 = 0) : (loadImage e ws).wf := by
  induction ws with
  | nil => exact ⟨List.Pairwise.nil, by simp [loadImage]⟩
  | cons p ws ih =>
    exact Memory.setWord_wf (ih fun q hq => h q (by simp [hq])) (h p (by simp)) e p.2

/-! ## The set `W` -/

theorem AddrSet.mem_insert (w : AddrSet) (a k : Nat) : k ∈ w.insert a ↔ k = a ∨ k ∈ w := by
  induction w with
  | nil => simp [AddrSet.insert]
  | cons j w ih =>
    simp only [AddrSet.insert]
    split
    · simp
    · split
      · rename_i heq; subst heq; simp
      · simp only [List.mem_cons, ih]; tauto

theorem AddrSet.insert_wf {w : AddrSet} (h : w.wf) {a : Nat} (ha : a < 65536) (he : a % 2 = 0) : (w.insert a).wf := by
  refine ⟨?_, fun k hk => ((AddrSet.mem_insert w a k).mp hk).elim (fun e => e ▸ ⟨ha, he⟩) (h.2 k)⟩
  obtain ⟨hp, -⟩ := h
  induction w with
  | nil => simp [AddrSet.insert]
  | cons j w ih =>
    obtain ⟨hj, hw⟩ := List.pairwise_cons.mp hp
    simp only [AddrSet.insert]
    split
    · rename_i hlt
      refine List.pairwise_cons.mpr ⟨fun x hx => ?_, hp⟩
      rcases List.mem_cons.mp hx with rfl | hx
      · exact hlt
      · exact hlt.trans (hj x hx)
    · split
      · exact hp
      · rename_i hlt heq
        refine List.pairwise_cons.mpr ⟨fun x hx => ?_, ih hw⟩
        rcases (AddrSet.mem_insert w a x).mp hx with rfl | hx
        · exact lt_of_le_of_ne (not_lt.mp hlt) (Ne.symm heq)
        · exact hj x hx

end Sys2Proof.Machine
end

