-- ==== Sys2Proof/Laws/State.lean ====
section
/-! SUPPORT. Beside `State`: what each update leaves in each field, and in each register, so that no later proof unfolds a
record update. -/

namespace Sys2Proof.Machine

variable (s : State)

/-! ## `writeReg` -/

@[simp] theorem writeReg_cfg (r : Reg) (v : Word) : (writeReg r v s).cfg = s.cfg := rfl
@[simp] theorem writeReg_regs (r : Reg) (v : Word) : (writeReg r v s).regs = s.regs.set r v := rfl
@[simp] theorem writeReg_pc (r : Reg) (v : Word) : (writeReg r v s).pc = s.pc := rfl
@[simp] theorem writeReg_epc (r : Reg) (v : Word) : (writeReg r v s).epc = s.epc := rfl
@[simp] theorem writeReg_mem (r : Reg) (v : Word) : (writeReg r v s).mem = s.mem := rfl
@[simp] theorem writeReg_imem (r : Reg) (v : Word) : (writeReg r v s).imem = s.imem := rfl
@[simp] theorem writeReg_stored (r : Reg) (v : Word) : (writeReg r v s).stored = s.stored := rfl
@[simp] theorem writeReg_halted (r : Reg) (v : Word) : (writeReg r v s).halted = s.halted := rfl

/-! ## `setPc` -/

@[simp] theorem setPc_cfg (p : Word) : (setPc p s).cfg = s.cfg := rfl
@[simp] theorem setPc_regs (p : Word) : (setPc p s).regs = s.regs := rfl
@[simp] theorem setPc_pc (p : Word) : (setPc p s).pc = p := rfl
@[simp] theorem setPc_epc (p : Word) : (setPc p s).epc = s.epc := rfl
@[simp] theorem setPc_mem (p : Word) : (setPc p s).mem = s.mem := rfl
@[simp] theorem setPc_imem (p : Word) : (setPc p s).imem = s.imem := rfl
@[simp] theorem setPc_stored (p : Word) : (setPc p s).stored = s.stored := rfl
@[simp] theorem setPc_halted (p : Word) : (setPc p s).halted = s.halted := rfl

/-! ## `advance` -/

@[simp] theorem advance_cfg : (advance s).cfg = s.cfg := rfl
@[simp] theorem advance_regs : (advance s).regs = s.regs := rfl
@[simp] theorem advance_pc : (advance s).pc = s.pc + 2 := rfl
@[simp] theorem advance_epc : (advance s).epc = s.epc := rfl
@[simp] theorem advance_mem : (advance s).mem = s.mem := rfl
@[simp] theorem advance_imem : (advance s).imem = s.imem := rfl
@[simp] theorem advance_stored : (advance s).stored = s.stored := rfl
@[simp] theorem advance_halted : (advance s).halted = s.halted := rfl

/-! ## `writeBack` -/

@[simp] theorem writeBack_cfg (r : Reg) (v : Word) : (writeBack r v s).cfg = s.cfg := rfl
@[simp] theorem writeBack_regs (r : Reg) (v : Word) : (writeBack r v s).regs = s.regs.set r v := rfl
@[simp] theorem writeBack_pc (r : Reg) (v : Word) : (writeBack r v s).pc = s.pc + 2 := rfl
@[simp] theorem writeBack_epc (r : Reg) (v : Word) : (writeBack r v s).epc = s.epc := rfl
@[simp] theorem writeBack_mem (r : Reg) (v : Word) : (writeBack r v s).mem = s.mem := rfl
@[simp] theorem writeBack_imem (r : Reg) (v : Word) : (writeBack r v s).imem = s.imem := rfl
@[simp] theorem writeBack_stored (r : Reg) (v : Word) : (writeBack r v s).stored = s.stored := rfl
@[simp] theorem writeBack_halted (r : Reg) (v : Word) : (writeBack r v s).halted = s.halted := rfl

/-! ## `setEpc` -/

@[simp] theorem setEpc_cfg (v : Word) : (setEpc v s).cfg = s.cfg := rfl
@[simp] theorem setEpc_regs (v : Word) : (setEpc v s).regs = s.regs := rfl
@[simp] theorem setEpc_pc (v : Word) : (setEpc v s).pc = s.pc := rfl
@[simp] theorem setEpc_epc (v : Word) : (setEpc v s).epc = v := rfl
@[simp] theorem setEpc_mem (v : Word) : (setEpc v s).mem = s.mem := rfl
@[simp] theorem setEpc_imem (v : Word) : (setEpc v s).imem = s.imem := rfl
@[simp] theorem setEpc_stored (v : Word) : (setEpc v s).stored = s.stored := rfl
@[simp] theorem setEpc_halted (v : Word) : (setEpc v s).halted = s.halted := rfl

/-! ## `setHalted` -/

@[simp] theorem setHalted_cfg : (setHalted s).cfg = s.cfg := rfl
@[simp] theorem setHalted_regs : (setHalted s).regs = s.regs := rfl
@[simp] theorem setHalted_pc : (setHalted s).pc = s.pc := rfl
@[simp] theorem setHalted_epc : (setHalted s).epc = s.epc := rfl
@[simp] theorem setHalted_mem : (setHalted s).mem = s.mem := rfl
@[simp] theorem setHalted_imem : (setHalted s).imem = s.imem := rfl
@[simp] theorem setHalted_stored : (setHalted s).stored = s.stored := rfl
@[simp] theorem setHalted_halted : (setHalted s).halted = true := rfl

/-! ## `raiseIllegalOp` -/

@[simp] theorem raiseIllegalOp_cfg : (raiseIllegalOp s).cfg = s.cfg := rfl
@[simp] theorem raiseIllegalOp_regs : (raiseIllegalOp s).regs = s.regs := rfl
@[simp] theorem raiseIllegalOp_pc : (raiseIllegalOp s).pc = 0x0002 := rfl
@[simp] theorem raiseIllegalOp_epc : (raiseIllegalOp s).epc = s.pc + 2 := rfl
@[simp] theorem raiseIllegalOp_mem : (raiseIllegalOp s).mem = s.mem := rfl
@[simp] theorem raiseIllegalOp_imem : (raiseIllegalOp s).imem = s.imem := rfl
@[simp] theorem raiseIllegalOp_stored : (raiseIllegalOp s).stored = s.stored := rfl
@[simp] theorem raiseIllegalOp_halted : (raiseIllegalOp s).halted = s.halted := rfl

/-! ## `returnFromException` -/

@[simp] theorem returnFromException_cfg : (returnFromException s).cfg = s.cfg := rfl
@[simp] theorem returnFromException_regs : (returnFromException s).regs = s.regs := rfl
@[simp] theorem returnFromException_pc : (returnFromException s).pc = s.epc := rfl
@[simp] theorem returnFromException_epc : (returnFromException s).epc = s.epc := rfl
@[simp] theorem returnFromException_mem : (returnFromException s).mem = s.mem := rfl
@[simp] theorem returnFromException_imem : (returnFromException s).imem = s.imem := rfl
@[simp] theorem returnFromException_stored : (returnFromException s).stored = s.stored := rfl
@[simp] theorem returnFromException_halted : (returnFromException s).halted = s.halted := rfl

/-! ## `afterStore` -/

@[simp] theorem afterStore_cfg (a v : Word) : (afterStore a v s).cfg = s.cfg := rfl
@[simp] theorem afterStore_regs (a v : Word) : (afterStore a v s).regs = s.regs := rfl
@[simp] theorem afterStore_pc (a v : Word) : (afterStore a v s).pc = s.pc := rfl
@[simp] theorem afterStore_epc (a v : Word) : (afterStore a v s).epc = s.epc := rfl
@[simp] theorem afterStore_imem (a v : Word) : (afterStore a v s).imem = s.imem := rfl
@[simp] theorem afterStore_halted (a v : Word) : (afterStore a v s).halted = s.halted := rfl
@[simp] theorem afterStore_mem (a v : Word) : (afterStore a v s).mem = s.mem.setWord s.cfg.endian a v := rfl
@[simp] theorem afterStore_stored (a v : Word) : (afterStore a v s).stored = AddrSet.insert s.stored a.toNat := rfl
@[simp] theorem readReg_afterStore (a v : Word) (r : Reg) : readReg r (afterStore a v s) = readReg r s := rfl

/-! ## `readReg` through the updates -/

theorem readReg_writeReg (q r : Reg) (v : Word) : readReg q (writeReg r v s) = if q = r then v else readReg q s := by
  simp [readReg, Vector.getElem_set, Fin.ext_iff, eq_comm]

@[simp] theorem readReg_writeReg_self (r : Reg) (v : Word) : readReg r (writeReg r v s) = v := by
  simp [readReg_writeReg]

theorem readReg_writeReg_of_ne {q r : Reg} (h : q ≠ r) (v : Word) : readReg q (writeReg r v s) = readReg q s := by
  simp [readReg_writeReg, h]

@[simp] theorem readReg_setPc (r : Reg) (p : Word) : readReg r (setPc p s) = readReg r s := rfl
@[simp] theorem readReg_advance (r : Reg) : readReg r (advance s) = readReg r s := rfl
@[simp] theorem readReg_setEpc (r : Reg) (v : Word) : readReg r (setEpc v s) = readReg r s := rfl
@[simp] theorem readReg_setHalted (r : Reg) : readReg r (setHalted s) = readReg r s := rfl
@[simp] theorem readReg_raiseIllegalOp (r : Reg) : readReg r (raiseIllegalOp s) = readReg r s := rfl
@[simp] theorem readReg_returnFromException (r : Reg) : readReg r (returnFromException s) = readReg r s := rfl

theorem readReg_writeBack (q r : Reg) (v : Word) : readReg q (writeBack r v s) = if q = r then v else readReg q s :=
  readReg_writeReg s q r v

@[simp] theorem readReg_writeBack_self (r : Reg) (v : Word) : readReg r (writeBack r v s) = v := by
  simp [readReg_writeBack]

theorem nextPc_eq : nextPc s = s.pc + 2 := rfl

end Sys2Proof.Machine
end

