-- ==== Sys2Proof/Laws/Ops.lean ====
section
/-! SUPPORT. What the shared operations over a state can do, each said once: the data accesses, the fetch, the step. -/

namespace Sys2Proof.Machine

/-! ## Going on or stopping -/

@[simp] theorem onOk_ok {α : Type} (a : α) (k : α → Result) : onOk (.ok a) k = k a := rfl

@[simp] theorem onOk_error {α : Type} (f : Fault) (k : α → Result) : onOk (.error f) k = .fault f := rfl

/-- An access followed by `k` answers a next state only through `k`. -/
theorem onOk_next {α : Type} {r : Except Fault α} {k : α → Result} {t : State} (h : onOk r k = .next t) :
    ∃ a, r = .ok a ∧ k a = .next t := by
  cases r with
  | ok a => exact ⟨a, rfl, h⟩
  | error f => simp at h

/-! ## Data accesses -/

/-- Everything a store can do. -/
theorem storeWord_cases (a v : Word) (s : State) :
    (a.toNat % 2 = 1 ∧ storeWord a v s = .error (.misaligned a)) ∨
    (a.toNat % 2 = 0 ∧ storeWord a v s = .ok (afterStore a v s)) := by
  by_cases h : isOdd a = true
  · exact .inl ⟨(isOdd_iff a).mp h, by simp [storeWord, h]⟩
  · have h : isOdd a = false := by simpa using h
    exact .inr ⟨(isOdd_eq_false_iff a).mp h, by simp [storeWord, h]⟩

theorem storeWord_even {a : Word} (h : a.toNat % 2 = 0) (v : Word) (s : State) :
    storeWord a v s = .ok (afterStore a v s) := by
  rcases storeWord_cases a v s with ⟨h', -⟩ | ⟨-, e⟩
  · omega
  · exact e

theorem storeWord_odd {a : Word} (h : a.toNat % 2 = 1) (v : Word) (s : State) :
    storeWord a v s = .error (.misaligned a) := by
  rcases storeWord_cases a v s with ⟨-, e⟩ | ⟨h', -⟩
  · exact e
  · omega

/-- A completed store was to an even address. -/
theorem storeWord_ok {a v : Word} {s t : State} (h : storeWord a v s = .ok t) :
    a.toNat % 2 = 0 ∧ t = afterStore a v s := by
  rcases storeWord_cases a v s with ⟨-, e⟩ | ⟨h', e⟩
  · rw [e] at h; cases h
  · rw [e] at h; cases h; exact ⟨h', rfl⟩

/-- Everything a word read can do. -/
theorem readWord_cases (c : Config) (m : Memory) (a : Word) :
    (a.toNat % 2 = 1 ∧ readWord c m a = .error (.misaligned a)) ∨
    (a.toNat % 2 = 0 ∧ (m.readByte c.memInit a.toNat = none ∨ m.readByte c.memInit (a.toNat + 1) = none) ∧
      readWord c m a = .error (.unspecifiedRead a)) ∨
    (∃ b0 b1, a.toNat % 2 = 0 ∧ m.readByte c.memInit a.toNat = some b0 ∧
      m.readByte c.memInit (a.toNat + 1) = some b1 ∧ readWord c m a = .ok (joinWord c.endian b0 b1)) := by
  by_cases h : isOdd a = true
  · exact .inl ⟨(isOdd_iff a).mp h, by simp [readWord, h]⟩
  · have h : isOdd a = false := by simpa using h
    have he := (isOdd_eq_false_iff a).mp h
    cases h0 : m.readByte c.memInit a.toNat with
    | none => exact .inr (.inl ⟨he, .inl rfl, by simp [readWord, h, h0]⟩)
    | some b0 =>
      cases h1 : m.readByte c.memInit (a.toNat + 1) with
      | none => exact .inr (.inl ⟨he, .inr rfl, by simp [readWord, h, h0, h1]⟩)
      | some b1 => exact .inr (.inr ⟨b0, b1, he, rfl, rfl, readWord_ok he h0 h1⟩)

/-- The load after a store to the same even address gives the value stored (rule R43). -/
theorem loadWord_afterStore {a : Word} (h : a.toNat % 2 = 0) (v : Word) (s : State) :
    loadWord a (afterStore a v s) = .ok v :=
  readWord_setWord s.cfg s.mem h v

/-! ## Fetch and step -/

/-- The memory view the fetch reads (rule R53). -/
def fetchView (s : State) : Memory :=
  match s.cfg.smc with
  | .split => s.imem
  | .refuse | .coherent => s.mem

/-- A fetch that `SMC` does not refuse is a word read of its view. -/
theorem fetchWord_of_not_refused {s : State} (h : s.cfg.smc = .refuse → s.pc.toNat ∉ s.stored) :
    fetchWord s = readWord s.cfg (fetchView s) s.pc := by
  unfold fetchWord fetchView
  by_cases ho : isOdd s.pc = true
  · simp [ho, readWord]
  · cases hc : s.cfg.smc <;> simp_all

/-- A fetch from a word stored to, under `SMC = refuse`. -/
theorem fetchWord_refused {s : State} (he : s.pc.toNat % 2 = 0) (hc : s.cfg.smc = .refuse)
    (h : s.pc.toNat ∈ s.stored) : fetchWord s = .error (.codeModified s.pc) := by
  simp [fetchWord, (isOdd_eq_false_iff s.pc).mpr he, hc, h]

theorem step_of_halted {s : State} (h : s.halted = true) : step s = .next s := by simp [step, h]

/-- A step of a machine that has not halted: the fetch, then the decoded instruction. -/
theorem step_of_running {s : State} (h : s.halted = false) : step s = onOk (fetchWord s) fun w => exec (decode w) s := by
  simp [step, h]

/-- The instruction of a step that answers a next state. -/
theorem step_next {s t : State} (h : s.halted = false) (hs : step s = .next t) :
    ∃ w, fetchWord s = .ok w ∧ exec (decode w) s = .next t := by
  rw [step_of_running h] at hs
  exact onOk_next hs

/-- A completed fetch was from an even pc. -/
theorem fetchWord_even {s : State} {w : Word} (h : fetchWord s = .ok w) : s.pc.toNat % 2 = 0 := by
  by_cases ho : isOdd s.pc = true
  · simp [fetchWord, ho] at h
  · exact (isOdd_eq_false_iff s.pc).mp (by simpa using ho)

end Sys2Proof.Machine
end

