-- ==== Sys2Proof/Laws/Frame.lean ====
section
/-! SUPPORT. The shapes of a completed instruction, each said once: one register and the pc, the pc alone, a stored word
(spec/10_state.md rules R23, R27). -/

namespace Sys2Proof.Machine

theorem SameMemory.refl (s : State) : SameMemory s s := ⟨fun _ => rfl, fun _ => rfl, rfl⟩

theorem SameControl.refl (s : State) : SameControl s s := ⟨rfl, rfl, rfl⟩

theorem SameRegs.refl (s : State) : SameRegs s s := fun _ => rfl

/-- An instruction whose effect is `x[d] <- v; pc <- p` writes one register. -/
theorem writesReg_intro {i : Instr} {s : State} {d : Reg} {v p : Word} {P : Word → Prop}
    (h : exec i s = .next (setPc p (writeReg d v s))) (hv : P v) : WritesReg i s d p P :=
  ⟨_, h, rfl, by simpa using hv, fun _ hr => by simp [readReg_writeReg_of_ne, hr], SameControl.refl s, SameMemory.refl s⟩

/-- An instruction whose effect is `pc <- p` moves the pc only. -/
theorem movesPc_intro {i : Instr} {s : State} {p q : Word} (h : exec i s = .next (setPc p s)) (hp : p = q) :
    MovesPc i s q :=
  ⟨_, h, hp, SameRegs.refl s, SameControl.refl s, SameMemory.refl s⟩

/-- A completed store is the storing of a word. -/
theorem storesWord_afterStore (a v : Word) (s : State) : StoresWord a v s (afterStore a v s) := by
  refine ⟨?_, fun b h0 h1 => ?_, fun _ => rfl, fun b => ?_, SameControl.refl s⟩
  · unfold HoldsWord
    cases he : s.cfg.endian <;> simp [Memory.get_setWord, he, lowAddrByte, highAddrByte]
  · simp [Memory.get_setWord, h0, h1]
  · simp [AddrSet.mem_insert]

end Sys2Proof.Machine
end

