-- ==== Sys2Proof/Laws/Exec.lean ====
section
/-! SUPPORT. What an instruction can do to the state, said once over all instructions, and what a run of `n + 1` steps is. -/

namespace Sys2Proof.Machine

/-- A branch moves the pc only, taken or not. -/
theorem branchIf_eq_setPc (c : Bool) (imm : Int) (s : State) : ∃ p, branchIf c imm s = setPc p s := by
  cases c
  · exact ⟨nextPc s, rfl⟩
  · exact ⟨relTarget s (simm8 imm), rfl⟩

/-- Everything an instruction that completes can do: move the pc; write one register of its write set and the pc; halt;
take the exception; store a word; store a word and write its address back to the base. -/
theorem exec_cases {i : Instr} {s t : State} (h : exec i s = .next t) :
    (∃ p, t = setPc p s) ∨
    (∃ r p v, r ∈ writeSet i ∧ t = setPc p (writeReg r v s)) ∨
    (i = .halt ∧ t = advance (setHalted s)) ∨
    (∃ r, i = .siic r ∧ s.cfg.excImplemented = true ∧ t = raiseIllegalOp s) ∨
    (∃ rd rs imm, i = .st rd rs imm ∧ (effAddr (readReg rs s) imm).toNat % 2 = 0 ∧
      t = advance (afterStore (effAddr (readReg rs s) imm) (readReg rd s) s)) ∨
    (∃ rd rs imm, i = .stu rd rs imm ∧ (effAddr (readReg rs s) imm).toNat % 2 = 0 ∧
      t = writeBack rs (effAddr (readReg rs s) imm) (afterStore (effAddr (readReg rs s) imm) (readReg rd s) s)) := by
  have branch : ∀ (c : Bool) (imm : Int), (Host.Outcome.next (branchIf c imm s) : Result) = .next t →
      ∃ p, t = setPc p s := fun c imm e => by
    injection e with e
    obtain ⟨p, hp⟩ := branchIf_eq_setPc c imm s
    exact ⟨p, e ▸ hp⟩
  cases i
  case halt => injection h with h; exact .inr (.inr (.inl ⟨rfl, h.symm⟩))
  case siic r =>
    by_cases hx : s.cfg.excImplemented = true <;> simp [exec, execSiic, hx] at h
    exact .inr (.inr (.inr (.inl ⟨r, rfl, hx, h.symm⟩)))
  case rti =>
    by_cases hx : s.cfg.excImplemented = true <;> simp [exec, execRti, hx] at h <;> exact .inl ⟨_, h.symm⟩
  case st =>
    obtain ⟨t', ht, hk⟩ := onOk_next h
    obtain ⟨he, rfl⟩ := storeWord_ok ht
    injection hk with hk
    exact .inr (.inr (.inr (.inr (.inl ⟨_, _, _, rfl, he, hk.symm⟩))))
  case stu =>
    obtain ⟨t', ht, hk⟩ := onOk_next h
    obtain ⟨he, rfl⟩ := storeWord_ok ht
    injection hk with hk
    exact .inr (.inr (.inr (.inr (.inr ⟨_, _, _, rfl, he, hk.symm⟩))))
  case ld =>
    obtain ⟨v, -, hk⟩ := onOk_next h
    injection hk with hk
    exact .inr (.inl ⟨_, _, _, by simp [writeSet], hk.symm⟩)
  case bnez => exact .inl (branch _ _ h)
  case beqz => exact .inl (branch _ _ h)
  case bltz => exact .inl (branch _ _ h)
  case bgez => exact .inl (branch _ _ h)
  case nop => injection h with h; exact .inl ⟨_, h.symm⟩
  case j => injection h with h; exact .inl ⟨_, h.symm⟩
  case jr => injection h with h; exact .inl ⟨_, h.symm⟩
  all_goals
    injection h with h
    exact .inr (.inl ⟨_, _, _, by simp only [writeSet, List.mem_singleton], h.symm⟩)

/-- A run of no step. -/
theorem reaches_zero {s t : State} : Reaches 0 s t ↔ s = t :=
  ⟨fun h => Host.Outcome.next.inj h, fun h => congrArg Host.Outcome.next h⟩

/-- A run of `n + 1` steps is a step that answers a next state, and a run of `n` steps from there. -/
theorem reaches_succ {n : Nat} {s t : State} : Reaches (n + 1) s t ↔ ∃ u, step s = .next u ∧ Reaches n u t := by
  have e : core.step s = step s := rfl
  simp only [Reaches, Host.Core.run, e]
  cases step s with
  | next u =>
    constructor
    · exact fun h => ⟨u, rfl, h⟩
    · rintro ⟨v, hv, h⟩
      cases hv
      exact h
  | fault f =>
    constructor
    · intro h
      cases h
    · rintro ⟨v, hv, -⟩
      cases hv
  | refused q =>
    constructor
    · intro h
      cases h
    · rintro ⟨v, hv, -⟩
      cases hv

end Sys2Proof.Machine
end

