-- ==== Sys2Proof/Laws/Fields.lean ====
section
/-! SUPPORT. The decoder's fields are the numbers the statements read from a word (spec/00_scope.md rules R9 to R11), and a
word whose opcode is known decodes by its row. -/

namespace Sys2Proof.Machine

theorem toNat_field (w : Word) (lo n : Nat) : (w.extractLsb' lo n).toNat = w.toNat / 2 ^ lo % 2 ^ n := by
  rw [BitVec.extractLsb'_toNat, Nat.shiftRight_eq_div_pow]

theorem toInt_field (w : Word) (lo n : Nat) (h : 0 < n) :
    (w.extractLsb' lo n).toInt = fieldInt (lo + n - 1) lo w := by
  have e : fieldNat (lo + n - 1) lo w = (w.extractLsb' lo n).toNat := by
    rw [toNat_field, fieldNat, show lo + n - 1 - lo + 1 = n by omega]
  have hp : (2 : Nat) ^ n = 2 * 2 ^ (n - 1) := by rw [← pow_succ', Nat.sub_add_cancel h]
  rw [fieldInt, e, show lo + n - 1 - lo = n - 1 by omega, Nat.sub_add_cancel h, BitVec.toInt]
  split <;> split
  · rfl
  · omega
  · omega
  · push_cast; rfl

theorem sField_eq (w : Word) : fieldReg 8 w = sField w := by
  apply Fin.ext
  simp [fieldReg, fieldNat, sField, BitVec.toFin_extractLsb', Nat.shiftRight_eq_div_pow]

theorem tField_eq (w : Word) : fieldReg 5 w = tField w := by
  apply Fin.ext
  simp [fieldReg, fieldNat, tField, BitVec.toFin_extractLsb', Nat.shiftRight_eq_div_pow]

theorem dField_eq (w : Word) : fieldReg 2 w = dField w := by
  apply Fin.ext
  simp [fieldReg, fieldNat, dField, BitVec.toFin_extractLsb', Nat.shiftRight_eq_div_pow]

theorem simm5Field_eq (w : Word) : fieldInt 4 0 w = simm5Field w := (toInt_field w 0 5 (by decide)).symm
theorem simm8Field_eq (w : Word) : fieldInt 7 0 w = simm8Field w := (toInt_field w 0 8 (by decide)).symm
theorem disp11Field_eq (w : Word) : fieldInt 10 0 w = disp11Field w := (toInt_field w 0 11 (by decide)).symm
theorem uimm5Field_eq (w : Word) : fieldNat 4 0 w = uimm5Field w := (toNat_field w 0 5).symm
theorem uimm8Field_eq (w : Word) : fieldNat 7 0 w = uimm8Field w := (toNat_field w 0 8).symm
theorem shamtField_eq_fieldNat (w : Word) : fieldNat 3 0 w = shamtField w := (toNat_field w 0 4).symm

theorem opcodeField_eq (w : Word) : fieldNat 15 11 w = (opcodeField w).val := by
  rw [opcodeField_val, fieldNat]
  have := w.isLt
  omega

end Sys2Proof.Machine
end

