-- ==== Sys2Proof/Laws/Operands.lean ====
section
/-! SUPPORT. What the operand forms, the shifts and the truth values are on the operands an encoding can hold
(spec/30_encoding.md rules R66, R67, spec/00_scope.md rules R11, R12). -/

namespace Sys2Proof.Machine

/-- A sign-extended field holds the operand itself, where the operand is in the field's range. -/
theorem signExtend_ofInt {n : Nat} {imm : Int} (h0 : 0 < n) (hl : -(2 ^ (n - 1) : Int) ≤ imm)
    (hu : imm < 2 ^ (n - 1)) : (BitVec.ofInt n imm).signExtend 16 = BitVec.ofInt 16 imm := by
  have ht : (BitVec.ofInt n imm).toInt = imm := by
    rw [BitVec.toInt_ofInt, Int.bmod_eq_of_le]
    · have : (2 : Int) ^ n = 2 * 2 ^ (n - 1) := by
        rw [← pow_succ', Nat.sub_add_cancel h0]
      push_cast; omega
    · have : (2 : Int) ^ n = 2 * 2 ^ (n - 1) := by
        rw [← pow_succ', Nat.sub_add_cancel h0]
      push_cast; omega
  simp [BitVec.signExtend, ht]

theorem simm5_eq {imm : Int} (h : -16 ≤ imm ∧ imm ≤ 15) : simm5 imm = BitVec.ofInt 16 imm :=
  signExtend_ofInt (by decide) (by norm_num; omega) (by norm_num; omega)

theorem simm8_eq {imm : Int} (h : -128 ≤ imm ∧ imm ≤ 127) : simm8 imm = BitVec.ofInt 16 imm :=
  signExtend_ofInt (by decide) (by norm_num; omega) (by norm_num; omega)

theorem disp11_eq {disp : Int} (h : -1024 ≤ disp ∧ disp ≤ 1023) : disp11 disp = BitVec.ofInt 16 disp :=
  signExtend_ofInt (by decide) (by norm_num; omega) (by norm_num; omega)

theorem uimm5_toNat {imm : Nat} (h : imm ≤ 31) : (uimm5 imm).toNat = imm := by
  simp [uimm5, BitVec.toNat_setWidth]; omega

theorem uimm8_toNat {imm : Nat} (h : imm ≤ 255) : (uimm8 imm).toNat = imm := by
  simp [uimm8, BitVec.toNat_setWidth]; omega

theorem immShamt_eq {amt : Nat} (h : amt ≤ 15) : immShamt amt = amt := by
  simp [immShamt]; omega

theorem regShamt_eq (v : Word) : regShamt v = v.toNat % 16 := by
  simp [regShamt, BitVec.extractLsb'_toNat]

/-! ## Shifts, rotates and reversal -/

theorem getLsbD_rotLeft (a : Word) {n i : Nat} (hn : n < 16) (hi : i < 16) :
    (rotLeft a n).getLsbD ((i + n) % 16) = a.getLsbD i := by
  interval_cases n <;> interval_cases i <;> simp [rotLeft]

theorem getLsbD_rotRight (a : Word) {n i : Nat} (hn : n < 16) (hi : i < 16) :
    (rotRight a n).getLsbD i = a.getLsbD ((i + n) % 16) := by
  interval_cases n <;> interval_cases i <;> simp [rotRight]

theorem toNat_shiftLeft (a : Word) (n : Nat) : (shiftLeft a n).toNat = a.toNat * 2 ^ n % 65536 := by
  simp [shiftLeft, Nat.shiftLeft_eq]

theorem toNat_shiftRight (a : Word) (n : Nat) : (shiftRight a n).toNat = a.toNat / 2 ^ n := by
  simp [shiftRight, Nat.shiftRight_eq_div_pow]

theorem getLsbD_bitReverse (a : Word) {i : Nat} (hi : i < 16) : (bitReverse a).getLsbD i = a.getLsbD (15 - i) := by
  rw [bitReverse, BitVec.getLsbD_reverse, BitVec.getMsbD_eq_getLsbD]
  simp [hi]

theorem toNat_shiftInByte (v : Word) {b : Word} (h : b.toNat < 256) :
    (shiftInByte v b).toNat = v.toNat % 256 * 256 + b.toNat := by
  have e : shiftInByte v b = BitVec.ofNat 16 (v.toNat % 256 * 256 + b.toNat) := by
    apply BitVec.eq_of_toNat_eq
    have hl : ((v <<< 8) ||| b).toNat = v.toNat % 256 * 2 ^ 8 ||| b.toNat := by
      simp [Nat.shiftLeft_eq]; congr 1; omega
    have := Nat.shiftLeft_add_eq_or_of_lt (i := 8) (b := b.toNat) (by omega) (v.toNat % 256)
    rw [Nat.shiftLeft_eq] at this
    simp only [shiftInByte, hl, ← this, BitVec.toNat_ofNat]
    omega
  rw [e, BitVec.toNat_ofNat]; omega

/-! ## Comparisons and conditions -/

/-- The signed reading of rule R11 is `BitVec.toInt`. -/
theorem Word_s_eq (v : Word) : Word.s v = v.toInt := by
  have := v.isLt
  simp only [Word.s, BitVec.toInt]
  split <;> split <;> omega

theorem isNegative_iff (v : Word) : isNegative v = decide (Word.s v < 0) := by
  have := v.isLt
  have hm : isNegative v = v.msb := by simp [isNegative, BitVec.msb, BitVec.getMsbD]
  rw [hm, BitVec.msb_eq_decide, Word.s]
  split <;> simp <;> omega

theorem carryOut_iff (a b : Word) : carryOut a b = decide (65536 ≤ a.toNat + b.toNat) := by
  have ha := a.isLt
  have hb := b.isLt
  have hs : (a.zeroExtend 17 + b.zeroExtend 17).toNat = a.toNat + b.toNat := by
    simp [BitVec.toNat_add, BitVec.toNat_setWidth]; omega
  simp only [carryOut, BitVec.getLsbD, hs, Nat.testBit, Nat.shiftRight_eq_div_pow]
  have hd : (a.toNat + b.toNat) / 2 ^ 16 = 0 ∧ ¬ 65536 ≤ a.toNat + b.toNat ∨
      (a.toNat + b.toNat) / 2 ^ 16 = 1 ∧ 65536 ≤ a.toNat + b.toNat := by omega
  rcases hd with ⟨h, h'⟩ | ⟨h, h'⟩ <;> simp only [h, h'] <;> decide

end Sys2Proof.Machine
end

