-- ==== Sys2Proof/Laws/PerInstr.lean ====
section
/-! SUPPORT. Per instruction: its encoding carries the fixed bits of its row of spec/opcode_table.json, whatever its
operands are. -/

namespace Sys2Proof.Laws.TableRow

/-- The `mask` of an instruction's row: the bits its pattern fixes. -/
def rowMask : Instr → Word
  | .halt => 0xF800
  | .nop => 0xF800
  | .siic _ => 0xF800
  | .rti => 0xF800
  | .j _ => 0xF800
  | .jr _ _ => 0xF800
  | .jal _ => 0xF800
  | .jalr _ _ => 0xF800
  | .subi _ _ _ => 0xF800
  | .addi _ _ _ => 0xF800
  | .andni _ _ _ => 0xF800
  | .xori _ _ _ => 0xF800
  | .bnez _ _ => 0xF800
  | .beqz _ _ => 0xF800
  | .bltz _ _ => 0xF800
  | .bgez _ _ => 0xF800
  | .st _ _ _ => 0xF800
  | .ld _ _ _ => 0xF800
  | .slbi _ _ => 0xF800
  | .stu _ _ _ => 0xF800
  | .roli _ _ _ => 0xF800
  | .slli _ _ _ => 0xF800
  | .rori _ _ _ => 0xF800
  | .srli _ _ _ => 0xF800
  | .lbi _ _ => 0xF800
  | .btr _ _ => 0xF800
  | .rol _ _ _ => 0xF803
  | .sll _ _ _ => 0xF803
  | .ror _ _ _ => 0xF803
  | .srl _ _ _ => 0xF803
  | .add _ _ _ => 0xF803
  | .sub _ _ _ => 0xF803
  | .xor _ _ _ => 0xF803
  | .andn _ _ _ => 0xF803
  | .seq _ _ _ => 0xF800
  | .slt _ _ _ => 0xF800
  | .sle _ _ _ => 0xF800
  | .sco _ _ _ => 0xF800

/-- The `match` of an instruction's row: the values of those bits. -/
def rowMatch : Instr → Word
  | .halt => 0x0000
  | .nop => 0x0800
  | .siic _ => 0x1000
  | .rti => 0x1800
  | .j _ => 0x2000
  | .jr _ _ => 0x2800
  | .jal _ => 0x3000
  | .jalr _ _ => 0x3800
  | .subi _ _ _ => 0x4000
  | .addi _ _ _ => 0x4800
  | .andni _ _ _ => 0x5000
  | .xori _ _ _ => 0x5800
  | .bnez _ _ => 0x6000
  | .beqz _ _ => 0x6800
  | .bltz _ _ => 0x7000
  | .bgez _ _ => 0x7800
  | .st _ _ _ => 0x8000
  | .ld _ _ _ => 0x8800
  | .slbi _ _ => 0x9000
  | .stu _ _ _ => 0x9800
  | .roli _ _ _ => 0xA000
  | .slli _ _ _ => 0xA800
  | .rori _ _ _ => 0xB000
  | .srli _ _ _ => 0xB800
  | .lbi _ _ => 0xC000
  | .btr _ _ => 0xC800
  | .rol _ _ _ => 0xD000
  | .sll _ _ _ => 0xD001
  | .ror _ _ _ => 0xD002
  | .srl _ _ _ => 0xD003
  | .add _ _ _ => 0xD800
  | .sub _ _ _ => 0xD801
  | .xor _ _ _ => 0xD802
  | .andn _ _ _ => 0xD803
  | .seq _ _ _ => 0xE000
  | .slt _ _ _ => 0xE800
  | .sle _ _ _ => 0xF000
  | .sco _ _ _ => 0xF800

/-- The encoding of `i` lies in the row of `i`. -/
def Statement (i : Instr) : Prop := encode i &&& rowMask i = rowMatch i

/-! ## By format -/

theorem packJ_row (op : BitVec 5) (d : BitVec 11) : packJ op d &&& 0xF800 = place op 11 := by
  refine field_ext fun i hi => ?_
  simp only [packJ, BitVec.getLsbD_and, BitVec.getLsbD_or, getLsbD_place]
  interval_cases i <;> simp

theorem packI1_row (op : BitVec 5) (s d : Reg) (imm : BitVec 5) : packI1 op s d imm &&& 0xF800 = place op 11 := by
  refine field_ext fun i hi => ?_
  simp only [packI1, BitVec.getLsbD_and, BitVec.getLsbD_or, getLsbD_place]
  interval_cases i <;> simp

theorem packI2_row (op : BitVec 5) (s : Reg) (imm : BitVec 8) : packI2 op s imm &&& 0xF800 = place op 11 := by
  refine field_ext fun i hi => ?_
  simp only [packI2, BitVec.getLsbD_and, BitVec.getLsbD_or, getLsbD_place]
  interval_cases i <;> simp

theorem packR_row (op : BitVec 5) (s t d : Reg) (ext : BitVec 2) : packR op s t d ext &&& 0xF800 = place op 11 := by
  refine field_ext fun i hi => ?_
  simp only [packR, BitVec.getLsbD_and, BitVec.getLsbD_or, getLsbD_place]
  interval_cases i <;> simp

theorem packR_extRow (op : BitVec 5) (s t d : Reg) (ext : BitVec 2) :
    packR op s t d ext &&& 0xF803 = place op 11 ||| place ext 0 := by
  refine field_ext fun i hi => ?_
  simp only [packR, BitVec.getLsbD_and, BitVec.getLsbD_or, getLsbD_place]
  interval_cases i <;> simp

/-! ## By instruction -/

theorem halt : Statement (.halt) := (packJ_row _ _).trans rfl
theorem nop : Statement (.nop) := (packJ_row _ _).trans rfl
theorem siic (rs : Reg) : Statement (.siic rs) := (packI2_row _ _ _).trans rfl
theorem rti : Statement (.rti) := (packJ_row _ _).trans rfl
theorem j (disp : Int) : Statement (.j disp) := (packJ_row _ _).trans rfl
theorem jr (rs : Reg) (imm : Int) : Statement (.jr rs imm) := (packI2_row _ _ _).trans rfl
theorem jal (disp : Int) : Statement (.jal disp) := (packJ_row _ _).trans rfl
theorem jalr (rs : Reg) (imm : Int) : Statement (.jalr rs imm) := (packI2_row _ _ _).trans rfl
theorem subi (rd rs : Reg) (imm : Int) : Statement (.subi rd rs imm) := (packI1_row _ _ _ _).trans rfl
theorem addi (rd rs : Reg) (imm : Int) : Statement (.addi rd rs imm) := (packI1_row _ _ _ _).trans rfl
theorem andni (rd rs : Reg) (imm : Nat) : Statement (.andni rd rs imm) := (packI1_row _ _ _ _).trans rfl
theorem xori (rd rs : Reg) (imm : Nat) : Statement (.xori rd rs imm) := (packI1_row _ _ _ _).trans rfl
theorem bnez (rs : Reg) (imm : Int) : Statement (.bnez rs imm) := (packI2_row _ _ _).trans rfl
theorem beqz (rs : Reg) (imm : Int) : Statement (.beqz rs imm) := (packI2_row _ _ _).trans rfl
theorem bltz (rs : Reg) (imm : Int) : Statement (.bltz rs imm) := (packI2_row _ _ _).trans rfl
theorem bgez (rs : Reg) (imm : Int) : Statement (.bgez rs imm) := (packI2_row _ _ _).trans rfl
theorem st (rd rs : Reg) (imm : Int) : Statement (.st rd rs imm) := (packI1_row _ _ _ _).trans rfl
theorem ld (rd rs : Reg) (imm : Int) : Statement (.ld rd rs imm) := (packI1_row _ _ _ _).trans rfl
theorem slbi (rs : Reg) (imm : Nat) : Statement (.slbi rs imm) := (packI2_row _ _ _).trans rfl
theorem stu (rd rs : Reg) (imm : Int) : Statement (.stu rd rs imm) := (packI1_row _ _ _ _).trans rfl
theorem roli (rd rs : Reg) (amt : Nat) : Statement (.roli rd rs amt) := (packI1_row _ _ _ _).trans rfl
theorem slli (rd rs : Reg) (amt : Nat) : Statement (.slli rd rs amt) := (packI1_row _ _ _ _).trans rfl
theorem rori (rd rs : Reg) (amt : Nat) : Statement (.rori rd rs amt) := (packI1_row _ _ _ _).trans rfl
theorem srli (rd rs : Reg) (amt : Nat) : Statement (.srli rd rs amt) := (packI1_row _ _ _ _).trans rfl
theorem lbi (rs : Reg) (imm : Int) : Statement (.lbi rs imm) := (packI2_row _ _ _).trans rfl
theorem btr (rd rs : Reg) : Statement (.btr rd rs) := (packR_row _ _ _ _ _).trans rfl
theorem rol (rd rs rt : Reg) : Statement (.rol rd rs rt) := (packR_extRow _ _ _ _ _).trans rfl
theorem sll (rd rs rt : Reg) : Statement (.sll rd rs rt) := (packR_extRow _ _ _ _ _).trans rfl
theorem ror (rd rs rt : Reg) : Statement (.ror rd rs rt) := (packR_extRow _ _ _ _ _).trans rfl
theorem srl (rd rs rt : Reg) : Statement (.srl rd rs rt) := (packR_extRow _ _ _ _ _).trans rfl
theorem add (rd rs rt : Reg) : Statement (.add rd rs rt) := (packR_extRow _ _ _ _ _).trans rfl
theorem sub (rd rs rt : Reg) : Statement (.sub rd rs rt) := (packR_extRow _ _ _ _ _).trans rfl
theorem xor (rd rs rt : Reg) : Statement (.xor rd rs rt) := (packR_extRow _ _ _ _ _).trans rfl
theorem andn (rd rs rt : Reg) : Statement (.andn rd rs rt) := (packR_extRow _ _ _ _ _).trans rfl
theorem seq (rd rs rt : Reg) : Statement (.seq rd rs rt) := (packR_row _ _ _ _ _).trans rfl
theorem slt (rd rs rt : Reg) : Statement (.slt rd rs rt) := (packR_row _ _ _ _ _).trans rfl
theorem sle (rd rs rt : Reg) : Statement (.sle rd rs rt) := (packR_row _ _ _ _ _).trans rfl
theorem sco (rd rs rt : Reg) : Statement (.sco rd rs rt) := (packR_row _ _ _ _ _).trans rfl

end Sys2Proof.Laws.TableRow
end

