-- ==== Sys2Proof/Tests/Slice0.lean ====
section
/-! SUPPORT. The model's own tests. Expected values are those of spec/95_test_vectors.md (sections 3, 4 and 6) and of the
examples in spec/40_jumps.md to spec/48_special.md, or are computed by hand from the rule named. -/

namespace Sys2Proof.Machine

/-! ## WellFormed refuses each ill-formed operand (rules R66, R92) -/

theorem test_wellFormed_simm5 :
    ¬ (Instr.addi 1 2 16).WellFormed ∧ ¬ (Instr.st 1 2 (-17)).WellFormed ∧ (Instr.subi 1 2 (-16)).WellFormed := by decide
theorem test_wellFormed_uimm5 :
    ¬ (Instr.andni 1 2 32).WellFormed ∧ ¬ (Instr.xori 1 2 32).WellFormed ∧ (Instr.xori 1 2 31).WellFormed := by decide
theorem test_wellFormed_shamt :
    ¬ (Instr.roli 1 2 16).WellFormed ∧ ¬ (Instr.srli 1 2 16).WellFormed ∧ (Instr.slli 1 2 15).WellFormed := by decide
theorem test_wellFormed_simm8 :
    ¬ (Instr.lbi 1 128).WellFormed ∧ ¬ (Instr.jr 1 (-129)).WellFormed ∧ ¬ (Instr.bgez 1 128).WellFormed := by decide
theorem test_wellFormed_uimm8 :
    ¬ (Instr.slbi 1 256).WellFormed ∧ (Instr.slbi 1 255).WellFormed := by decide
theorem test_wellFormed_disp11 :
    ¬ (Instr.j 1024).WellFormed ∧ ¬ (Instr.jal (-1025)).WellFormed ∧ (Instr.j (-1024)).WellFormed := by decide

/-! ## Decoding: words written bit by bit from rule R70's patterns, every constructor -/

theorem test_decode_special :
    decode 0b00000_11111111111 = .halt ∧ decode 0b00001_11111111111 = .nop ∧
    decode 0b00010_111_11111111 = .siic 7 ∧ decode 0b00011_11111111111 = .rti := by decide
theorem test_decode_jumps :
    decode 0b00100_01111111111 = .j 1023 ∧ decode 0b00101_111_11111111 = .jr 7 (-1) ∧
    decode 0b00110_11111111100 = .jal (-4) ∧ decode 0b00111_001_00000100 = .jalr 1 4 := by decide
theorem test_decode_alu_immediate :
    decode 0b01000_001_010_00101 = .subi 2 1 5 ∧ decode 0b01001_001_010_11111 = .addi 2 1 (-1) ∧
    decode 0b01010_101_010_10101 = .andni 2 5 21 ∧ decode 0b01011_001_010_10101 = .xori 2 1 21 := by decide
theorem test_decode_shift_immediate :
    decode 0b10100_001_010_10100 = .roli 2 1 4 ∧ decode 0b10101_011_110_01101 = .slli 6 3 13 ∧
    decode 0b10110_001_010_10001 = .rori 2 1 1 ∧ decode 0b10111_111_111_10000 = .srli 7 7 0 := by decide
theorem test_decode_branches :
    decode 0b01100_001_11111010 = .bnez 1 (-6) ∧ decode 0b01101_001_10000000 = .beqz 1 (-128) ∧
    decode 0b01110_001_00000010 = .bltz 1 2 ∧ decode 0b01111_111_11111111 = .bgez 7 (-1) := by decide
theorem test_decode_load_store :
    decode 0b10000_000_001_11110 = .st 1 0 (-2) ∧ decode 0b10001_000_011_11110 = .ld 3 0 (-2) ∧
    decode 0b10011_110_001_11110 = .stu 1 6 (-2) := by decide
theorem test_decode_byte_immediate :
    decode 0b10010_001_11101111 = .slbi 1 0xEF ∧ decode 0b11000_001_10011100 = .lbi 1 (-100) := by decide
theorem test_decode_register_shifts :
    decode 0b11001_001_010_011_00 = .btr 3 1 ∧ decode 0b11010_001_010_011_00 = .rol 3 1 2 ∧
    decode 0b11010_001_010_011_01 = .sll 3 1 2 ∧ decode 0b11010_001_010_011_10 = .ror 3 1 2 ∧
    decode 0b11010_001_010_011_11 = .srl 3 1 2 := by decide
theorem test_decode_register_arithmetic :
    decode 0b11011_001_010_011_00 = .add 3 1 2 ∧ decode 0b11011_001_010_011_01 = .sub 3 1 2 ∧
    decode 0b11011_001_010_011_10 = .xor 3 1 2 ∧ decode 0b11011_001_010_011_11 = .andn 3 1 2 := by decide
theorem test_decode_set :
    decode 0b11100_001_010_011_11 = .seq 3 1 2 ∧ decode 0b11101_001_010_011_00 = .slt 3 1 2 ∧
    decode 0b11110_001_010_011_10 = .sle 3 1 2 ∧ decode 0b11111_001_010_011_01 = .sco 3 1 2 := by decide
theorem test_decodeBytes_truncated :
    decodeBytes .big [] = .error .truncated ∧ decodeBytes .big [0x49] = .error .truncated ∧
    decodeBytes .big [0x49, 0x5F, 0x00] = .ok (.addi 2 1 (-1), [0x00]) ∧
    decodeBytes .little [0x5F, 0x49] = .ok (.addi 2 1 (-1), []) := ⟨rfl, rfl, rfl, rfl⟩
/-- The canonical words of rule R73 and spec/95_test_vectors.md. -/
theorem test_encode :
    encode (.siic 5) = 0x1500 ∧ encode (.j (-2)) = 0x27FE ∧ encode (.addi 2 1 (-16)) = 0x4950 ∧
    encode (.stu 1 6 (-2)) = 0x9E3E ∧ encode (.srli 7 7 0) = 0xBFE0 ∧ encode (.btr 3 1) = 0xC90C ∧
    encode (.srl 4 1 2) = 0xD153 ∧ encode (.sco 3 1 2) = 0xF94C := by decide

/-! ## One step -/

/-- A machine under the defaults, at `pc`, with R0 = 0x0040, R1, R2 and R7 given, the word 0x1234 at 0x0040 and NOP at 0x0100. -/
def machine (pc r1 r2 r7 : Word) : State :=
  setPc pc (State.afterReset Config.default #v[0x0040, r1, r2, 0, 0, 0, 0, r7] 0x1234
    [(0x0040, 0x12), (0x0041, 0x34), (0x0100, 0x08), (0x0101, 0x00)])

/-- The state one step later, the word `w` placed at `pc`. -/
def after (w : Nat) (s : State) : Option State :=
  match step (s.withFetchWord 16 w) with
  | .next t => some t
  | .fault _ => none
  | .refused _ => none

/-- The fault of that step. -/
def faultOf (w : Nat) (s : State) : Option Fault :=
  match step (s.withFetchWord 16 w) with
  | .next _ => none
  | .fault f => some f
  | .refused _ => none

/-- A register, and the pc, one step later. -/
def regPc (w : Nat) (r : Reg) (s : State) : Option (Word × Word) := (after w s).map fun t => (readReg r t, t.pc)

/-- R2 after `w` with R1 = `a`, at 0x0100, where the pc advances. -/
def imm (w : Nat) (a : Word) : Option (Word × Word) := regPc w 2 (machine 0x0100 a 0x7777 0)

/-- R3 after `w` with R1 = `a` and R2 = `b`. -/
def rrr (w : Nat) (a b : Word) : Option (Word × Word) := regPc w 3 (machine 0x0100 a b 0)

theorem test_subi : imm 0x4143 0x0005 = some (0xFFFE, 0x0102) ∧ imm 0x4140 0x8000 = some (0x8000, 0x0102) := by decide
theorem test_addi : imm 0x4950 0x8000 = some (0x7FF0, 0x0102) ∧ imm 0x494F 0x7FFF = some (0x800E, 0x0102) := by decide
theorem test_andni : imm 0x515F 0xFFFF = some (0xFFE0, 0x0102) ∧ imm 0x5155 0x00FF = some (0x00EA, 0x0102) := by decide
theorem test_xori : imm 0x595F 0xFFFF = some (0xFFE0, 0x0102) ∧ imm 0x595F 0x0000 = some (0x001F, 0x0102) := by decide
theorem test_roli : imm 0xA154 0x1234 = some (0x2341, 0x0102) ∧ imm 0xA14F 0x8001 = some (0xC000, 0x0102) := by decide
theorem test_slli : imm 0xA958 0x00FF = some (0xFF00, 0x0102) ∧ imm 0xA94F 0xFFFF = some (0x8000, 0x0102) := by decide
theorem test_rori : imm 0xB151 0x0001 = some (0x8000, 0x0102) ∧ imm 0xB14F 0x8001 = some (0x0003, 0x0102) := by decide
theorem test_srli : imm 0xB95F 0x8000 = some (0x0001, 0x0102) ∧ imm 0xB940 0x1234 = some (0x1234, 0x0102) := by decide
theorem test_add : rrr 0xD94C 0x8000 0x8000 = some (0x0000, 0x0102) ∧ rrr 0xD94C 0x7FFF 0x0001 = some (0x8000, 0x0102) := by decide
theorem test_sub : rrr 0xD94D 0x0001 0x8000 = some (0x7FFF, 0x0102) ∧ rrr 0xD94D 0x0001 0x0003 = some (0x0002, 0x0102) := by decide
theorem test_xor : rrr 0xD94E 0xFF00 0x0FF0 = some (0xF0F0, 0x0102) := by decide
theorem test_andn : rrr 0xD94F 0x00FF 0xFF00 = some (0x00FF, 0x0102) ∧ rrr 0xD94F 0xFFFF 0x00FF = some (0xFF00, 0x0102) := by decide
theorem test_rol : rrr 0xD14C 0x1234 0x0014 = some (0x2341, 0x0102) ∧ rrr 0xD14C 0x1234 0xFFF0 = some (0x1234, 0x0102) := by decide
theorem test_sll : rrr 0xD14D 0x0001 0x001F = some (0x8000, 0x0102) ∧ rrr 0xD14D 0x1234 0x0010 = some (0x1234, 0x0102) := by decide
theorem test_ror : rrr 0xD14E 0x1234 0x8008 = some (0x3412, 0x0102) ∧ rrr 0xD14E 0x0001 0x0001 = some (0x8000, 0x0102) := by decide
theorem test_srl : rrr 0xD14F 0xFFFF 0x0011 = some (0x7FFF, 0x0102) ∧ rrr 0xD14F 0x8000 0x000F = some (0x0001, 0x0102) := by decide
theorem test_btr : rrr 0xC94C 0x1234 0 = some (0x2C48, 0x0102) ∧ rrr 0xC9EF 0x0001 0 = some (0x8000, 0x0102) := by decide
theorem test_seq : rrr 0xE14C 0x8000 0x8000 = some (0x0001, 0x0102) ∧ rrr 0xE14C 0xFFFF 0x0001 = some (0x0000, 0x0102) := by decide
theorem test_slt : rrr 0xE94C 0x8000 0x0001 = some (0x0001, 0x0102) ∧ rrr 0xE94C 0x0000 0xFFFF = some (0x0000, 0x0102) := by decide
theorem test_sle : rrr 0xF14C 0x8000 0x8000 = some (0x0001, 0x0102) ∧ rrr 0xF14C 0x7FFF 0x8000 = some (0x0000, 0x0102) := by decide
theorem test_sco : rrr 0xF94C 0xFFFF 0x0001 = some (0x0001, 0x0102) ∧ rrr 0xF94C 0x7FFF 0x7FFF = some (0x0000, 0x0102) := by decide
theorem test_lbi : regPc 0xC19C 1 (machine 0x0100 0 0 0) = some (0xFF9C, 0x0102) := by decide
theorem test_slbi : regPc 0x91EF 1 (machine 0x0100 0xABCD 0 0) = some (0xCDEF, 0x0102) := by decide
theorem test_j : regPc 0x2400 7 (machine 0x0002 0 0 0x1111) = some (0x1111, 0xFC04) ∧
    regPc 0x2000 7 (machine 0xFFFE 0 0 0x1111) = some (0x1111, 0x0000) := by decide
theorem test_jal : regPc 0x37FC 7 (machine 0x0040 0 0 0x1111) = some (0x0042, 0x003E) ∧
    regPc 0x3000 7 (machine 0xFFFE 0 0 0x1111) = some (0x0000, 0x0000) := by decide
theorem test_jr : regPc 0x297F 7 (machine 0x0010 0xFFFF 0 0x1111) = some (0x1111, 0x007E) := by decide
theorem test_jalr : regPc 0x3F00 7 (machine 0x0010 0 0 0x0200) = some (0x0012, 0x0200) ∧
    regPc 0x3980 7 (machine 0xFFFE 0x0080 0 0) = some (0x0000, 0x0000) := by decide
theorem test_bnez : regPc 0x61FA 1 (machine 0x0008 0x8000 0 0) = some (0x8000, 0x0004) ∧
    regPc 0x61FA 1 (machine 0x0008 0x0000 0 0) = some (0x0000, 0x000A) := by decide
theorem test_beqz : regPc 0x6980 1 (machine 0x0010 0x0000 0 0) = some (0x0000, 0xFF92) ∧
    regPc 0x697F 1 (machine 0x0010 0x0001 0 0) = some (0x0001, 0x0012) := by decide
theorem test_bltz : regPc 0x7102 1 (machine 0x0010 0x8000 0 0) = some (0x8000, 0x0014) ∧
    regPc 0x7102 1 (machine 0x0010 0x7FFF 0 0) = some (0x7FFF, 0x0012) := by decide
theorem test_bgez : regPc 0x7902 1 (machine 0x0002 0xFF9C 0 0) = some (0xFF9C, 0x0004) ∧
    regPc 0x7902 1 (machine 0x0002 0x0000 0 0) = some (0x0000, 0x0006) := by decide

/-- The bytes of memory and the set `W` one step later. -/
def memAt (w : Nat) (a : Nat) (s : State) : Option (Option Byte × Option Byte × AddrSet) :=
  (after w s).map fun t => (t.mem.get a, t.mem.get (a + 1), t.stored)

/-- `ST R2, R1, 2` with R1 = 0xFFFE wraps to 0x0000; `ST R1, R0, -2`. -/
theorem test_st : memAt 0x8142 0x0000 (machine 0x0100 0xFFFE 0x5556 0) = some (some 0x55, some 0x56, [0x0000]) ∧
    memAt 0x803E 0x003E (machine 0x0100 0xBEEF 0 0) = some (some 0xBE, some 0xEF, [0x003E]) := by decide
theorem test_ld : regPc 0x8920 1 (machine 0x0100 0x0040 0 0) = some (0x1234, 0x0102) ∧
    faultOf 0x8920 (machine 0x0100 0x0041 0 0) = some (.misaligned 0x0041) := by decide
/-- `STU R0, R0, 2` stores the old R0; a misaligned STU stops. -/
theorem test_stu : memAt 0x9802 0x0042 (machine 0x0100 0 0 0) = some (some 0x00, some 0x40, [0x0042]) ∧
    regPc 0x9802 0 (machine 0x0100 0 0 0) = some (0x0042, 0x0102) := by decide
theorem test_stu_misaligned : faultOf 0x9821 (machine 0x0100 0x9999 0 0) = some (.misaligned 0x0041) := by decide
theorem test_ld_unwritten : faultOf 0x8820 (writeReg 0 0x0300 (machine 0x0100 0 0 0)) = some (.unspecifiedRead 0x0300) := by decide
theorem test_halt : (after 0x07FF (machine 0xFFFE 0 0 0)).map (fun t => (t.halted, t.pc)) = some (true, 0x0000) := by decide
theorem test_nop : regPc 0x0FFF 1 (machine 0x0006 0 0 0) = some (0x0000, 0x0008) := by decide
theorem test_siic : (after 0x1500 (machine 0x000A 0 0 0)).map (fun t => (t.epc, t.pc)) = some (0x000C, 0x0002) ∧
    (after 0x1000 (machine 0xFFFE 0 0 0)).map (fun t => (t.epc, t.pc)) = some (0x0000, 0x0002) := by decide
theorem test_rti : (after 0x1FFF (machine 0x0004 0 0 0)).map (fun t => (t.epc, t.pc)) = some (0x1234, 0x1234) := by decide
/-- Deferred (rule R205). -/
theorem test_deferred :
    (after 0x1800 (withExc false (machine 0x0004 0 0 0))).map (fun t => (t.epc, t.pc)) = some (0x1234, 0x0006) ∧
    faultOf 0x1000 (withExc false (machine 0x0004 0 0 0)) = some .unimplementedSiic := by decide

/-! ## Witnesses: for each statement with hypotheses, states and operands that meet them, at the ends of their ranges -/

theorem witness_DecodeOfEncode :
    (Instr.j (-1024)).WellFormed ∧ (Instr.slbi 7 255).WellFormed ∧ (Instr.stu 7 7 (-16)).WellFormed ∧
    (Instr.srli 0 7 15).WellFormed ∧ (Instr.sco 7 7 7).WellFormed := by decide

/-- Words that differ in ignored bits only. -/
theorem witness_IgnoredBitsDoNotMatter :
    (0x07FF : Word) &&& significantBits 0x0000 = 0x0000 &&& significantBits 0x0000 ∧
    (0x17FF : Word) &&& significantBits 0x1700 = 0x1700 &&& significantBits 0x1700 ∧
    (0xA154 : Word) &&& significantBits 0xA144 = 0xA144 &&& significantBits 0xA144 ∧
    (0xC9EF : Word) &&& significantBits 0xC90C = 0xC90C &&& significantBits 0xC90C ∧
    (0xFFFF : Word) &&& significantBits 0xFFFC = 0xFFFC &&& significantBits 0xFFFC := by decide

/-- Immediate ALU and shift instructions: a word of each row, and both ends of each operand. -/
theorem witness_alu_immediate :
    ((0x4150 : Word) &&& 0xF800 = 0x4000 ∧ (0x495F : Word) &&& 0xF800 = 0x4800 ∧ (0x57FF : Word) &&& 0xF800 = 0x5000 ∧
      (0x5955 : Word) &&& 0xF800 = 0x5800 ∧ (0xA154 : Word) &&& 0xF800 = 0xA000 ∧ (0xABCD : Word) &&& 0xF800 = 0xA800 ∧
      (0xB151 : Word) &&& 0xF800 = 0xB000 ∧ (0xBFF0 : Word) &&& 0xF800 = 0xB800) ∧
    InSimm5 (-16) ∧ InSimm5 15 ∧ InUimm5 0 ∧ InUimm5 31 ∧ InShamt 0 ∧ InShamt 15 := by decide

/-- ST, LD, STU: even addresses at both ends of memory, odd addresses, and words held there in both orders. -/
theorem witness_load_store :
    ((0x803E : Word) &&& 0xF800 = 0x8000 ∧ (0x887E : Word) &&& 0xF800 = 0x8800 ∧ (0x9FFF : Word) &&& 0xF800 = 0x9800) ∧
    InSimm5 (-16) ∧ InSimm5 15 ∧ (effAddr (readReg 1 (machine 0 0xFFF1 0 0)) 15).toNat = 0 ∧
    (effAddr (readReg 1 (machine 0 0x0000 0 0)) (-2)).toNat = 65534 ∧
    (effAddr (readReg 0 (machine 0 0 0 0)) 1).toNat % 2 = 1 ∧
    (effAddr (readReg 1 (machine 0 0x0000 0 0)) (-1)).toNat = 65535 := by decide

theorem witness_LdLoadsWord :
    HoldsWord (machine 0 0 0 0).cfg.endian (machine 0 0 0 0).mem (effAddr (readReg 0 (machine 0 0 0 0)) 0) 0x1234 ∧
    HoldsWord .little [(0xFFFE, 0x34), (0xFFFF, 0x12)] (effAddr 0x0000 (-2)) 0x1234 := by
  refine ⟨⟨?_, ?_⟩, ?_, ?_⟩ <;> decide

theorem witness_LoadGivesStoredWord : ∃ s t u : State, InSimm5 15 ∧ InSimm5 (-16) ∧
    exec (.st 1 0 (-16)) s = .next t ∧ u.cfg = t.cfg ∧ effAddr (readReg 2 u) 15 = effAddr (readReg 0 s) (-16) ∧
    u.mem.get (effAddr (readReg 0 s) (-16)).toNat = t.mem.get (effAddr (readReg 0 s) (-16)).toNat ∧
    u.mem.get ((effAddr (readReg 0 s) (-16)).toNat + 1) = t.mem.get ((effAddr (readReg 0 s) (-16)).toNat + 1) :=
  ⟨machine 0x0100 0xBEEF 0x0021 0, _, advance (afterStore 0x0030 0xBEEF (machine 0x0100 0xBEEF 0x0021 0)),
    by decide, by decide, rfl, rfl, by decide, rfl, rfl⟩

theorem witness_byte_immediate :
    ((0xC180 : Word) &&& 0xF800 = 0xC000 ∧ (0x91FF : Word) &&& 0xF800 = 0x9000) ∧
    InSimm8 (-128) ∧ InSimm8 127 ∧ InUimm8 0 ∧ InUimm8 255 := by decide

/-- J and JAL: both ends of the displacement, an odd one from an even pc, and one at each end of memory. -/
theorem witness_jumps :
    ((0x23FF : Word) &&& 0xF800 = 0x2000 ∧ (0x37FC : Word) &&& 0xF800 = 0x3000) ∧
    InDisp11 (-1024) ∧ InDisp11 1023 ∧ (1023 : Int) % 2 = 1 ∧ (-1023 : Int) % 2 = 1 ∧
    (machine 0x0000 0 0 0).pc.toNat % 2 = 0 ∧ (machine 0xFFFE 0 0 0).pc.toNat % 2 = 0 ∧
    (machine 0xFFFE 0 0 0).halted = false := by decide

theorem witness_register_jumps :
    ((0x297F : Word) &&& 0xF800 = 0x2800 ∧ (0x3980 : Word) &&& 0xF800 = 0x3800) ∧ InSimm8 (-128) ∧ InSimm8 127 := by decide

/-- Each branch, taken and not taken, at the ends of its condition. -/
theorem witness_branches :
    ((0x61FA : Word) &&& 0xF800 = 0x6000 ∧ (0x6980 : Word) &&& 0xF800 = 0x6800 ∧ (0x7102 : Word) &&& 0xF800 = 0x7000 ∧
      (0x7FFF : Word) &&& 0xF800 = 0x7800) ∧ InSimm8 (-128) ∧ InSimm8 127 ∧
    Word.u (readReg 1 (machine 0 0x0001 0 0)) ≠ 0 ∧ Word.u (readReg 1 (machine 0 0xFFFF 0 0)) ≠ 0 ∧
    Word.u (readReg 1 (machine 0 0x0000 0 0)) = 0 ∧ Word.s (readReg 1 (machine 0 0x8000 0 0)) < 0 ∧
    Word.s (readReg 1 (machine 0 0xFFFF 0 0)) < 0 ∧ 0 ≤ Word.s (readReg 1 (machine 0 0x0000 0 0)) ∧
    0 ≤ Word.s (readReg 1 (machine 0 0x7FFF 0 0)) := by decide

theorem witness_alu_register :
    (0xD94C : Word) &&& 0xF803 = 0xD800 ∧ (0xD94D : Word) &&& 0xF803 = 0xD801 ∧ (0xD94E : Word) &&& 0xF803 = 0xD802 ∧
    (0xD94F : Word) &&& 0xF803 = 0xD803 ∧ (0xD14C : Word) &&& 0xF803 = 0xD000 ∧ (0xD14D : Word) &&& 0xF803 = 0xD001 ∧
    (0xD14E : Word) &&& 0xF803 = 0xD002 ∧ (0xD14F : Word) &&& 0xF803 = 0xD003 ∧ (0xC9EF : Word) &&& 0xF800 = 0xC800 := by
  decide

theorem witness_set :
    (0xE14F : Word) &&& 0xF800 = 0xE000 ∧ (0xE94C : Word) &&& 0xF800 = 0xE800 ∧ (0xF14C : Word) &&& 0xF800 = 0xF000 ∧
    (0xFFFF : Word) &&& 0xF800 = 0xF800 := by decide

theorem witness_special :
    (0x07FF : Word) &&& 0xF800 = 0x0000 ∧ (0x0FFF : Word) &&& 0xF800 = 0x0800 ∧ (0x17FF : Word) &&& 0xF800 = 0x1000 ∧
    (0x1FFF : Word) &&& 0xF800 = 0x1800 ∧ State.reset.cfg.excImplemented = true := by decide

/-- RTI after SIIC, with other registers than the SIIC left. -/
theorem witness_RtiReturnsFromTheException : ∃ s t u : State, s.cfg.excImplemented = true ∧
    exec (.siic 3) s = .next t ∧ u.cfg = t.cfg ∧ u.epc = t.epc ∧ u ≠ t :=
  ⟨machine 0xFFFE 0 0 0, _, writeReg 1 0x5555 (raiseIllegalOp (machine 0xFFFE 0 0 0)), rfl, rfl, rfl, rfl, by decide⟩

theorem witness_DeferredSiicAndRti :
    (withExc false State.reset).cfg.excImplemented = false ∧ Instr.add 1 2 3 ≠ .rti ∧ ∀ r, Instr.add 1 2 3 ≠ .siic r :=
  ⟨rfl, by decide, by decide⟩

/-- A machine that runs ADDI R2, R1, -1 at 0xFFFE, under each `SMC`. -/
def addiAt (p : Smc) : State := withSmc p ((machine 0xFFFE 5 0 0).withFetchWord 16 0x495F)

theorem witness_StepRunsDecodedInstruction :
    decode 0x495F = .addi 2 1 (-1) ∧ ∀ p, (addiAt p).halted = false ∧ (addiAt p).pc.toNat % 2 = 0 ∧
      ((addiAt p).cfg.smc = .refuse → (addiAt p).pc.toNat ∉ (addiAt p).stored ∧
        HoldsWord (addiAt p).cfg.endian (addiAt p).mem (addiAt p).pc 0x495F) ∧
      ((addiAt p).cfg.smc = .coherent → HoldsWord (addiAt p).cfg.endian (addiAt p).mem (addiAt p).pc 0x495F) ∧
      ((addiAt p).cfg.smc = .split → HoldsWord (addiAt p).cfg.endian (addiAt p).imem (addiAt p).pc 0x495F) := by
  refine ⟨by decide, fun p => ⟨rfl, by cases p <;> decide, fun _ => ⟨?_, ?_, ?_⟩, fun _ => ⟨?_, ?_⟩, fun _ => ⟨?_, ?_⟩⟩⟩ <;>
    cases p <;> decide

theorem witness_OddPcFaultsAtTheFetch :
    ((machine 0x0001 0 0 0).halted = false ∧ (machine 0x0001 0 0 0).pc.toNat % 2 = 1 ∧
      (machine 0xFFFF 0 0 0).pc.toNat % 2 = 1) ∧
    (machine 0x0010 0x0101 0 0).pc.toNat % 2 = 0 ∧
    (∃ t, (Instr.j 1023).WellFormed ∧ exec (.j 1023) (machine 0x0010 0 0 0) = .next t ∧ t.pc.toNat % 2 = 1) ∧
    (∃ t, (Instr.beqz 1 127).WellFormed ∧ exec (.beqz 1 127) (machine 0x0010 0 0 0) = .next t ∧ t.pc.toNat % 2 = 1) ∧
    (∃ t, (Instr.jr 1 0).WellFormed ∧ exec (.jr 1 0) (machine 0x0010 0x0101 0 0) = .next t ∧ t.pc.toNat % 2 = 1) ∧
    (∃ t, Instr.rti.WellFormed ∧ exec .rti (setEpc 0x0101 (machine 0x0010 0 0 0)) = .next t ∧ t.pc.toNat % 2 = 1) := by
  refine ⟨by decide, by decide, ⟨_, by decide, rfl, ?_⟩, ⟨_, by decide, rfl, ?_⟩, ⟨_, by decide, rfl, ?_⟩,
    ⟨_, by decide, rfl, ?_⟩⟩ <;> decide

/-- A machine that has stored 0x0000 over the image word 0x0800 at its own pc, under each `SMC` (program F4). -/
def storedAt (p : Smc) : State :=
  withSmc p (afterStore 0x0100 0x0000 ((machine 0x0100 0 0 0).withFetchWord 16 0x0800))

theorem witness_FetchOfStoredWordFollowsSmc :
    ∀ p, (storedAt p).halted = false ∧ (storedAt p).pc.toNat % 2 = 0 ∧ (storedAt p).pc.toNat ∈ (storedAt p).stored ∧
      (storedAt p).cfg.smc = p ∧
      HoldsWord (storedAt p).cfg.endian (storedAt p).mem (storedAt p).pc 0x0000 ∧
      HoldsWord (storedAt p).cfg.endian (storedAt p).imem (storedAt p).pc 0x0800 := by
  refine fun p => ⟨rfl, by cases p <;> decide, ?_, rfl, ⟨?_, ?_⟩, ?_, ?_⟩ <;> cases p <;> decide

/-- What the three values of `SMC` give there: a fault, HALT, NOP (program F4). -/
theorem test_fetch_of_stored_word :
    (match step (storedAt .refuse) with | .fault f => some f | _ => none) = some (.codeModified 0x0100) ∧
    (match step (storedAt .coherent) with | .next t => some t.halted | _ => none) = some true ∧
    (match step (storedAt .split) with | .next t => some t.halted | _ => none) = some false := by decide

/-- A machine at 0xFFFE whose memory and image list one byte of the word at 0x0000 and none of the word at 0xFFFE. -/
def unwrittenAt (z : MemInit) (p : Smc) : State :=
  withMemInit z (withSmc p (setPc 0xFFFE (State.afterReset Config.default (Vector.replicate 8 0x0000) 0x0000 [(0x0000, 0)])))

/-- LD and the fetch of the word at 0xFFFE, neither byte written, and of the word at 0x0000, its second byte not written,
under each `MEM_INIT` and `SMC`. -/
theorem witness_UnwrittenWordFollowsMemInit :
    (InSimm5 (-16) ∧ InSimm5 15 ∧ InSimm5 (-2)) ∧ ∀ z p, (unwrittenAt z p).cfg.memInit = z ∧ (unwrittenAt z p).cfg.smc = p ∧
      (effAddr (readReg 1 (unwrittenAt z p)) (-2)).toNat = 0xFFFE ∧ (effAddr (readReg 1 (unwrittenAt z p)) 0).toNat = 0x0000 ∧
      (unwrittenAt z p).halted = false ∧ (unwrittenAt z p).pc.toNat = 0xFFFE ∧
      (unwrittenAt z p).pc.toNat ∉ (unwrittenAt z p).stored ∧ 0x0000 ∉ (unwrittenAt z p).stored ∧
      (unwrittenAt z p).mem.get 0xFFFE = none ∧ (unwrittenAt z p).mem.get (0xFFFE + 1) = none ∧
      (unwrittenAt z p).imem.get 0xFFFE = none ∧ (unwrittenAt z p).imem.get (0xFFFE + 1) = none ∧
      (unwrittenAt z p).mem.get 0x0000 = some 0 ∧ (unwrittenAt z p).mem.get (0x0000 + 1) = none ∧
      (unwrittenAt z p).imem.get (0x0000 + 1) = none := by
  refine ⟨by decide, fun z p => ?_⟩
  cases z <;> cases p <;> decide

/-- Program F5's last step under the defaults, and under `MEM_INIT = zero`: halted, the pc behind it. -/
theorem test_run_off_the_image :
    (match step (setPc 0x0004 State.reset) with | .fault f => some f | _ => none) = some (.unspecifiedRead 0x0004) ∧
    (match step (withMemInit .zero (setPc 0x0004 State.reset)) with | .next t => some (t.halted, t.pc) | _ => none) =
      some (true, 0x0006) := by decide

theorem witness_PlacedWordRunsNext :
    (0 : Nat) < 65536 ∧ 65535 < 65536 ∧ (machine 0xFFFE 0 0 0).pc.toNat % 2 = 0 ∧ State.reset.pc.toNat % 2 = 0 := by decide

/-- Two machines that differ in a register ADDI R2, R1, 1 does not read. -/
theorem witness_RegistersReadAndWrittenAreThoseNamed :
    (∃ s t : State, exec (.addi 2 1 1) s = .next t ∧ (7 : Reg) ∉ writeSet (.addi 2 1 1)) ∧
    (∃ s u : State, AgreeOn (readSet (.addi 2 1 1)) s u ∧ s ≠ u) :=
  ⟨⟨machine 0 5 0 0, _, rfl, by decide⟩,
    ⟨machine 0 5 0 0, machine 0 5 0 9, ⟨by decide, rfl, ⟨rfl, rfl, rfl⟩, rfl, rfl, rfl⟩, by decide⟩⟩

theorem witness_PcAdvancesByTheTable : ∃ s t : State, (Instr.bltz 1 (-128)).WellFormed ∧ s.cfg.excImplemented = true ∧
    exec (.bltz 1 (-128)) s = .next t :=
  ⟨machine 0 0x8000 0 0, _, by decide, rfl, rfl⟩

theorem witness_EpcIsWrittenBySiicAndReadByRti :
    (∃ s t : State, (∀ r, Instr.rti ≠ .siic r) ∧ exec .rti s = .next t) ∧ Instr.siic 1 ≠ .rti :=
  ⟨⟨State.reset, _, by decide, rfl⟩, by decide⟩

theorem witness_HaltedIsFinal :
    (∃ t, exec .halt State.reset = .next t ∧ t.halted = true) ∧
    (∃ s t : State, Finishes 1 s t ∧ 1 ≤ 2) ∧ (setHalted State.reset).halted = true :=
  ⟨⟨_, rfl, rfl⟩, ⟨State.reset.withFetchWord 16 0x0000, advance (setHalted (State.reset.withFetchWord 16 0x0000)),
    ⟨rfl, rfl⟩, by decide⟩, rfl⟩

theorem witness_OnlyStoresChangeMemory :
    (∃ s t : State, (∀ d r k, Instr.ld 1 1 0 ≠ .st d r k ∧ Instr.ld 1 1 0 ≠ .stu d r k) ∧ exec (.ld 1 1 0) s = .next t) ∧
    ∃ s t : State, Reaches 1 s t ∧ t.stored ≠ s.stored :=
  ⟨⟨machine 0x0100 0x0040 0 0, _, fun _ _ _ => ⟨nofun, nofun⟩, rfl⟩,
    ⟨(machine 0x0100 0xBEEF 0 0).withFetchWord 16 0x803E, _, rfl, by decide⟩⟩

theorem witness_StopsAreThoseListed :
    exec (.stu 1 0 1) (machine 0x0100 0 0 0) = .fault (.misaligned 0x0041) ∧
    exec (.ld 1 0 2) (machine 0x0100 0 0 0) = .fault (.unspecifiedRead 0x0042) ∧
    exec (.siic 1) (withExc false (machine 0x0100 0 0 0)) = .fault .unimplementedSiic := ⟨rfl, rfl, rfl⟩

theorem witness_InvariantsHoldAfterReset :
    Memory.wf [(0x0000, 0x12), (0x0001, 0x34), (0xFFFE, 0), (0xFFFF, 0)] ∧ (0xFFFE : Word).toNat % 2 = 0 := by decide

/-- A machine after `ST R1, R0, -2`: `W` is not empty, and its word differs from the image's. -/
theorem memInv_stored : MemInv (afterStore 0x0040 0xBEEF (machine 0x0100 0 0 0)) where
  memWf := by decide
  imemWf := by decide
  storedWf := by decide
  storedPresent := by decide
  imageAgrees a h := by
    have e : (afterStore 0x0040 0xBEEF (machine 0x0100 0 0 0)).stored = [0x0040] := by decide
    rw [e] at h
    have hm : (afterStore 0x0040 0xBEEF (machine 0x0100 0 0 0)).mem = [(0x0040, 0xBE), (0x0041, 0xEF), (0x0100, 0x08), (0x0101, 0x00)] := by
      decide
    have hi : (afterStore 0x0040 0xBEEF (machine 0x0100 0 0 0)).imem = [(0x0040, 0x12), (0x0041, 0x34), (0x0100, 0x08), (0x0101, 0x00)] := by
      decide
    have h0 : 0x0040 ≠ a := by rintro rfl; exact h (by decide)
    have h1 : 0x0041 ≠ a := by rintro rfl; exact h (by decide)
    rw [hm, hi]
    simp only [Memory.get, h0, h1, if_false]

theorem witness_StepKeepsMemoryConsistent : ∃ s t : State, MemInv s ∧ s.stored ≠ [] ∧ step s = .next t :=
  ⟨setPc 0x0040 (withSmc .coherent (afterStore 0x0040 0xBEEF (machine 0x0100 0 0 0))), _,
    ⟨memInv_stored.1, memInv_stored.2, memInv_stored.3, memInv_stored.4, memInv_stored.5⟩, by decide, rfl⟩

theorem witness_StepKeepsEpcEven : ∃ s t : State, EpcEven s ∧ step s = .next t ∧ t.epc ≠ s.epc :=
  ⟨(machine 0x0100 0 0 0).withFetchWord 16 0x1000, _, by show _ % 2 = 0; decide, rfl, by decide⟩

theorem witness_FirstInstructionIsAtResetPc :
    (0xFFFE : Word).toNat % 2 = 0 ∧ HoldsWord .little [(0xFFFE, 0x5F), (0xFFFF, 0x49)] 0xFFFE 0x495F ∧
    HoldsWord .big [(0x0000, 0x49), (0x0001, 0x5F)] 0x0000 0x495F := by
  refine ⟨by decide, ⟨?_, ?_⟩, ?_, ?_⟩ <;> decide

theorem bytesExchanged_word : BytesExchanged [(0x0040, 0x12), (0x0041, 0x34)] [(0x0040, 0x34), (0x0041, 0x12)] := by
  intro a ha
  by_cases h : a = 0x0040
  · subst h; decide
  · have h0 : ¬ 0x0040 = a := fun e => h e.symm
    have h1 : ¬ 0x0041 = a := by omega
    have h2 : ¬ 0x0040 = a + 1 := by omega
    have h3 : ¬ 0x0041 = a + 1 := by omega
    simp only [Memory.get, h0, h1, h2, h3, if_false, and_self]

/-- A big-endian and a little-endian machine that hold the same word. -/
theorem witness_ByteOrderIsNotObservable : ∃ s t : State, EndianMirror s t ∧ s.mem ≠ [] :=
  ⟨State.afterReset Config.default (Vector.replicate 8 7) 2 [(0x0040, 0x12), (0x0041, 0x34)],
    State.afterReset ⟨.little, 0, .unspecified, true, .refuse⟩ (Vector.replicate 8 7) 2 [(0x0040, 0x34), (0x0041, 0x12)],
    ⟨rfl, rfl, rfl, rfl, rfl, rfl, bytesExchanged_word, bytesExchanged_word⟩, by decide⟩

theorem witness_SmcValuesAgreeOnUnmodifiedCode : ∃ s : State, MemInv s ∧ s.stored ≠ [] ∧ s.cfg.smc = .refuse ∧
    step s = exec .nop s ∧ ∀ a, step s ≠ .fault (.codeModified a) :=
  ⟨afterStore 0x0040 0xBEEF (machine 0x0100 0 0 0), memInv_stored, by decide, rfl, rfl, fun a h => by cases h⟩

theorem witness_UnspecifiedMemoryIsSafe : ∃ s t : State, s.cfg.memInit = .unspecified ∧ step s = .next t :=
  ⟨(machine 0x0100 0x0040 0 0).withFetchWord 16 0x8920, _, rfl, rfl⟩

end Sys2Proof.Machine
end

/-! PROOF. The whole-machine rules of spec/10_state.md: the registers an instruction names (R23), the pc (R27), EPC (R30)
and `halted` (R32). -/

namespace Sys2Proof.Machine

/-! ## Outcomes of an access, in two states -/

/-- One access, gone on from in two ways. -/
theorem outcomeRel_onOk {α : Type} {R : State → State → Prop} {r : Except Fault α} {k k' : α → Result}
    (h : ∀ a, OutcomeRel R (k a) (k' a)) : OutcomeRel R (onOk r k) (onOk r k') := by
  cases r with
  | ok a => exact h a
  | error f => exact rfl

/-- One store made in two states: whether it stops is the address's to say. -/
theorem outcomeRel_storeWord {R : State → State → Prop} {a v : Word} {s u : State} {k k' : State → Result}
    (h : OutcomeRel R (k (afterStore a v s)) (k' (afterStore a v u))) :
    OutcomeRel R (onOk (storeWord a v s) k) (onOk (storeWord a v u) k') := by
  rcases storeWord_cases a v s with ⟨ho, e⟩ | ⟨he, e⟩
  · rw [e, storeWord_odd ho]
    exact rfl
  · rw [e, storeWord_even he]
    exact h

/-! ## Registers read and written (rule R23) -/

/-- A register outside the column "writes" is unchanged. -/
theorem readReg_of_notMem_writeSet {i : Instr} {s t : State} {r : Reg} (h : exec i s = .next t) (hr : r ∉ writeSet i) :
    readReg r t = readReg r s := by
  rcases exec_cases h with ⟨p, rfl⟩ | ⟨d, p, v, hd, rfl⟩ | ⟨-, rfl⟩ | ⟨-, -, -, rfl⟩ | ⟨rd, rs, imm, -, -, rfl⟩ |
    ⟨rd, rs, imm, rfl, -, rfl⟩
  · rfl
  · have hne : r ≠ d := fun e => hr (e ▸ hd)
    simp [readReg_writeReg_of_ne, hne]
  · rfl
  · rfl
  · rfl
  · have hne : r ≠ rs := by simpa [writeSet] using hr
    simp [readReg_writeBack, hne]

/-- The same state with other registers. -/
def withRegs (g : Vector Word 8) (s : State) : State := { s with regs := g }

@[simp] theorem withRegs_cfg (g : Vector Word 8) (s : State) : (withRegs g s).cfg = s.cfg := rfl

/-- Two states that agree on everything but registers differ in the registers alone. -/
theorem AgreeOn.exists_withRegs {rs : List Reg} {s u : State} (h : AgreeOn rs s u) : ∃ g, u = withRegs g s := by
  obtain ⟨-, hpc, ⟨hepc, hhalted, hcfg⟩, hmem, himem, hstored⟩ := h
  refine ⟨u.regs, ?_⟩
  cases u
  simp_all [withRegs]

theorem branchIf_withRegs (g : Vector Word 8) (c : Bool) (imm : Int) (s : State) :
    branchIf c imm (withRegs g s) = withRegs g (branchIf c imm s) := by
  cases c <;> rfl

section
variable {g : Vector Word 8}

/-- Two next states that differ in registers, none of which the instruction writes. -/
theorem agreeOn_nil_withRegs (t : State) : AgreeOn [] t (withRegs g t) :=
  ⟨by simp, rfl, SameControl.refl t, rfl, rfl, rfl⟩

/-- Two next states in which the register written holds the same value. -/
theorem agreeOn_singleton_writeReg {d : Reg} {p v w : Word} {s : State} (h : w = v) :
    AgreeOn [d] (setPc p (writeReg d v s)) (setPc p (writeReg d w (withRegs g s))) :=
  ⟨by simp [h], rfl, SameControl.refl s, rfl, rfl, rfl⟩

theorem agreeOn_singleton_writeBack {d : Reg} {v w : Word} {s : State} (h : w = v) :
    AgreeOn [d] (writeBack d v s) (writeBack d w (withRegs g s)) :=
  agreeOn_singleton_writeReg h

/-- The outcome of an instruction does not see the registers outside its column "reads": once the register reads are
rewritten, both outcomes are one access and one write-back, in two states that differ in registers alone. -/
theorem outcomeRel_exec_withRegs {i : Instr} {s : State}
    (hread : ∀ r ∈ readSet i, readReg r (withRegs g s) = readReg r s) :
    OutcomeRel (AgreeOn (writeSet i)) (exec i s) (exec i (withRegs g s)) := by
  cases i <;> simp only [readSet, List.mem_cons, List.not_mem_nil, or_false, forall_eq_or_imp, forall_eq] at hread
  case halt | nop | j => exact agreeOn_nil_withRegs _
  case jr =>
    simp only [exec, execJr, hread]
    exact agreeOn_nil_withRegs _
  case siic =>
    by_cases hx : s.cfg.excImplemented = true <;> simp only [exec, execSiic, withRegs_cfg, hx]
    · exact agreeOn_nil_withRegs _
    · exact rfl
  case rti =>
    by_cases hx : s.cfg.excImplemented = true <;> simp only [exec, execRti, withRegs_cfg, hx] <;>
      exact agreeOn_nil_withRegs _
  case bnez | beqz | bltz | bgez =>
    simp only [exec, execBnez, execBeqz, execBltz, execBgez, hread, branchIf_withRegs]
    exact agreeOn_nil_withRegs _
  case ld =>
    simp only [exec, execLd, hread]
    exact outcomeRel_onOk fun v => agreeOn_singleton_writeBack rfl
  case st =>
    simp only [exec, execSt, hread]
    exact outcomeRel_storeWord (agreeOn_nil_withRegs _)
  case stu =>
    simp only [exec, execStu, hread]
    exact outcomeRel_storeWord (agreeOn_singleton_writeBack rfl)
  case jal | lbi => exact agreeOn_singleton_writeReg rfl
  case jalr =>
    simp only [exec, execJalr, hread]
    exact agreeOn_singleton_writeReg rfl
  all_goals exact agreeOn_singleton_writeBack (by simp only [hread])

end

/-- Settles O47: the frame from what a completed instruction can do, the dependence from the one state and its copy with
other registers. -/
theorem registersReadAndWrittenAreThoseNamed : Obligations.RegistersReadAndWrittenAreThoseNamed := by
  refine ⟨fun _ _ _ _ => readReg_of_notMem_writeSet, fun i s u h => ?_⟩
  obtain ⟨g, rfl⟩ := h.exists_withRegs
  exact outcomeRel_exec_withRegs h.1

/-! ## The pc (rule R27) -/

theorem isZero_iff (v : Word) : isZero v = decide (Word.u v = 0) := by
  simp [isZero, Word.u, BitVec.toNat_eq, Bool.beq_eq_decide_eq]

theorem branchIf_pc (c : Bool) {imm : Int} (h : InSimm8 imm) (s : State) :
    (branchIf c imm s).pc = if c then s.pc + 2 + BitVec.ofInt 16 imm else s.pc + 2 := by
  cases c
  · rfl
  · exact congrArg (s.pc + 2 + ·) (simm8_eq h)

theorem pc_of_next {t u : State} {p : Word} (h : (Host.Outcome.next u : Result) = .next t) (hp : u.pc = p) : t.pc = p :=
  Host.Outcome.next.inj h ▸ hp

/-- Settles O48, by the rows of the table: the targets and the conditions are those of the model at operands in range, and
the rest advance. -/
theorem pcAdvancesByTheTable : Obligations.PcAdvancesByTheTable := by
  intro i s t hw hx h
  cases i
  case j disp | jal disp => exact pc_of_next h (congrArg (s.pc + 2 + ·) (disp11_eq (of_decide_eq_true hw)))
  case jr rs imm | jalr rs imm => exact pc_of_next h (congrArg (readReg rs s + ·) (simm8_eq (of_decide_eq_true hw)))
  case bnez | beqz | bltz | bgez =>
    refine pc_of_next h ((branchIf_pc _ (of_decide_eq_true hw) s).trans ?_)
    simp only [pcRule, isZero_iff, isNegative_iff, Bool.not_eq_true', decide_eq_true_eq, decide_eq_false_iff_not, ite_not]
  case siic | rti =>
    simp only [exec, execSiic, execRti, hx, if_true] at h
    exact pc_of_next h rfl
  case ld =>
    obtain ⟨v, -, hk⟩ := onOk_next h
    exact pc_of_next hk rfl
  case st | stu =>
    obtain ⟨s', hs, hk⟩ := onOk_next h
    obtain ⟨-, rfl⟩ := storeWord_ok hs
    exact pc_of_next hk rfl
  all_goals exact pc_of_next h rfl

/-! ## EPC (rule R30) -/

/-- Only SIIC writes EPC. -/
theorem epc_of_not_siic {i : Instr} {s t : State} (hi : ∀ r, i ≠ .siic r) (h : exec i s = .next t) : t.epc = s.epc := by
  rcases exec_cases h with ⟨p, rfl⟩ | ⟨d, p, v, -, rfl⟩ | ⟨-, rfl⟩ | ⟨r, hr, -, -⟩ | ⟨rd, rs, imm, -, -, rfl⟩ |
    ⟨rd, rs, imm, -, -, rfl⟩
  · rfl
  · rfl
  · rfl
  · exact absurd hr (hi r)
  · rfl
  · rfl

theorem branchIf_setEpc (v : Word) (c : Bool) (imm : Int) (s : State) :
    branchIf c imm (setEpc v s) = setEpc v (branchIf c imm s) := by
  cases c <;> rfl

/-- Only RTI reads EPC. -/
theorem outcomeRel_exec_setEpc {i : Instr} (hi : i ≠ .rti) (v : Word) (s : State) :
    OutcomeRel (fun t u => setEpc 0 u = setEpc 0 t) (exec i s) (exec i (setEpc v s)) := by
  cases i
  case rti => exact absurd rfl hi
  case siic =>
    by_cases hx : s.cfg.excImplemented = true <;> simp only [exec, execSiic, setEpc_cfg, hx] <;> exact rfl
  case bnez | beqz | bltz | bgez =>
    simp only [exec, execBnez, execBeqz, execBltz, execBgez, readReg_setEpc, branchIf_setEpc]
    exact rfl
  case ld => exact outcomeRel_onOk fun _ => rfl
  case st | stu => exact outcomeRel_storeWord rfl
  all_goals exact rfl

/-- Settles O49: the frame of EPC, and the outcome of a state and of its copy with another EPC. -/
theorem epcIsWrittenBySiicAndReadByRti : Obligations.EpcIsWrittenBySiicAndReadByRti :=
  ⟨fun _ _ _ => epc_of_not_siic, fun _ v s hi => outcomeRel_exec_setEpc hi v s⟩

/-! ## `halted` (rule R32) -/

/-- An instruction that completes sets `halted` where it is HALT, and else leaves it. -/
theorem halted_iff_of_exec {i : Instr} {s t : State} (h : exec i s = .next t) :
    t.halted = true ↔ s.halted = true ∨ i = .halt := by
  by_cases hi : i = .halt
  · subst hi
    injection h with h
    subst h
    simp
  · have hs : t.halted = s.halted := by
      rcases exec_cases h with ⟨p, rfl⟩ | ⟨d, p, v, -, rfl⟩ | ⟨hh, -⟩ | ⟨-, -, -, rfl⟩ | ⟨rd, rs, imm, -, -, rfl⟩ |
        ⟨rd, rs, imm, -, -, rfl⟩
      · rfl
      · rfl
      · exact absurd hh hi
      · rfl
      · rfl
      · rfl
    simp [hs, hi]

theorem reaches_self_of_halted {s : State} (h : s.halted = true) (n : Nat) : Reaches n s s := by
  induction n with
  | zero => exact reaches_zero.mpr rfl
  | succ n ih => exact reaches_succ.mpr ⟨s, step_of_halted h, ih⟩

/-- Two runs, one after the other. -/
theorem reaches_add {n m : Nat} {s u t : State} (h : Reaches n s u) (hm : Reaches m u t) : Reaches (n + m) s t := by
  induction n generalizing s with
  | zero =>
    obtain rfl := reaches_zero.mp h
    rwa [Nat.zero_add]
  | succ n ih =>
    obtain ⟨w, hw, hn⟩ := reaches_succ.mp h
    rw [Nat.succ_add]
    exact reaches_succ.mpr ⟨w, hw, ih hn⟩

/-- A finished run stays finished. -/
theorem finishes_mono {n m : Nat} {s t : State} (h : Finishes n s t) (hm : n ≤ m) : Finishes m s t := by
  obtain ⟨k, rfl⟩ := Nat.exists_eq_add_of_le hm
  obtain ⟨hr, ht⟩ := h
  exact ⟨reaches_add hr (reaches_self_of_halted ht k), ht⟩

/-- Settles O50, the last part by a run from a halted state after the run that ended in it. -/
theorem haltedIsFinal : Obligations.HaltedIsFinal :=
  ⟨fun _ _ _ _ => rfl, fun _ _ _ => halted_iff_of_exec, fun n _ h => reaches_self_of_halted h n,
    fun _ _ _ _ => finishes_mono⟩

end Sys2Proof.Machine

/-! PROOF. One step of spec/20_memory.md: the fetch and what it runs (R57), the odd pc (R47), and the byte order, which no
program observes (R45). -/

namespace Sys2Proof.Machine

/-! ## The instruction a step runs (rule R57) -/

theorem holdsWord_iff (e : Endian) (m : Memory) (a v : Word) :
    HoldsWord e m a v ↔ m.get a.toNat = some (lowAddrByte e v) ∧ m.get (a.toNat + 1) = some (highAddrByte e v) := by
  cases e <;> exact Iff.rfl

theorem readWord_of_holdsWord {c : Config} {m : Memory} {a v : Word} (ha : a.toNat % 2 = 0)
    (h : HoldsWord c.endian m a v) : readWord c m a = .ok v := by
  obtain ⟨h0, h1⟩ := (holdsWord_iff _ _ _ _).mp h
  rw [readWord_ok ha (Memory.readByte_of_get h0 _) (Memory.readByte_of_get h1 _), joinWord_split]

/-- A step whose fetch `SMC` does not refuse runs the word that the view of the fetch holds. -/
theorem step_of_holdsWord {w : Word} {s : State} (hrun : s.halted = false) (he : s.pc.toNat % 2 = 0)
    (hw : s.cfg.smc = .refuse → s.pc.toNat ∉ s.stored) (h : HoldsWord s.cfg.endian (fetchView s) s.pc w) :
    step s = exec (decode w) s := by
  rw [step_of_running hrun, fetchWord_of_not_refused hw, readWord_of_holdsWord he h, onOk_ok]

/-- Settles O42, by the view of the fetch under each `SMC`. -/
theorem stepRunsDecodedInstruction : Obligations.StepRunsDecodedInstruction := by
  rintro w _ s rfl hrun he hrefuse hcoherent hsplit
  refine step_of_holdsWord hrun he (fun hc => (hrefuse hc).1) ?_
  unfold fetchView
  cases hc : s.cfg.smc with
  | refuse => exact (hrefuse hc).2
  | coherent => exact hcoherent hc
  | split => exact hsplit hc

/-! ## Relations of states that instructions keep -/

theorem OutcomeRel.exists_next {R : State → State → Prop} {s : State} {o : Result} (h : OutcomeRel R (.next s) o) :
    ∃ u, o = .next u ∧ R s u := by
  cases o with
  | next u => exact ⟨u, rfl, h⟩
  | fault f => exact h.elim
  | refused q => exact h.elim

/-- One store made in two states, which are compared where the address is even. -/
theorem outcomeRel_storeWord_of_even {R : State → State → Prop} {a v : Word} {s u : State} {k k' : State → Result}
    (h : a.toNat % 2 = 0 → OutcomeRel R (k (afterStore a v s)) (k' (afterStore a v u))) :
    OutcomeRel R (onOk (storeWord a v s) k) (onOk (storeWord a v u) k') := by
  rcases storeWord_cases a v s with ⟨ho, e⟩ | ⟨he, -⟩
  · rw [e, storeWord_odd ho]
    exact rfl
  · exact outcomeRel_storeWord (h he)

/-- Related states have the same registers and pc, and the same write to both of a register, the pc or the halted mark
leaves them related. -/
structure WriteCongr (R : State → State → Prop) : Prop where
  regs {s u : State} : R s u → u.regs = s.regs
  pc {s u : State} : R s u → u.pc = s.pc
  writeReg {s u : State} (r : Reg) (v : Word) : R s u → R (writeReg r v s) (writeReg r v u)
  setPc {s u : State} (p : Word) : R s u → R (setPc p s) (setPc p u)
  setHalted {s u : State} : R s u → R (setHalted s) (setHalted u)

namespace WriteCongr
variable {R : State → State → Prop} {s u : State}

theorem readReg (hR : WriteCongr R) (h : R s u) (r : Reg) : readReg r u = readReg r s := by
  simp only [Machine.readReg, hR.regs h]

theorem nextPc (hR : WriteCongr R) (h : R s u) : nextPc u = nextPc s := by
  simp only [nextPc_eq, hR.pc h]

theorem setPc_of_eq (hR : WriteCongr R) (h : R s u) {p q : Word} (hq : q = p) :
    R (Machine.setPc p s) (Machine.setPc q u) :=
  hq ▸ hR.setPc p h

theorem advance (hR : WriteCongr R) (h : R s u) : R (advance s) (advance u) :=
  hR.setPc_of_eq h (hR.nextPc h)

theorem writeBack (hR : WriteCongr R) (h : R s u) {r : Reg} {v w : Word} (hw : w = v) :
    R (writeBack r v s) (writeBack r w u) :=
  hR.advance (hw ▸ hR.writeReg r v h)

theorem branchIf (hR : WriteCongr R) (h : R s u) {c d : Bool} (imm : Int) (hd : d = c) :
    R (branchIf c imm s) (branchIf d imm u) := by
  subst hd
  cases d
  · exact hR.advance h
  · exact hR.setPc_of_eq h (by simp only [relTarget, hR.nextPc h])

/-- An instruction but SIIC and RTI keeps the relation of two states, where loads find the same and stores keep it. -/
theorem exec (hR : WriteCongr R) (h : R s u) {i : Instr} (hrti : i ≠ .rti) (hsiic : ∀ r, i ≠ .siic r)
    (hload : ∀ a, loadWord a u = loadWord a s)
    (hstore : ∀ a v, a.toNat % 2 = 0 → R (afterStore a v s) (afterStore a v u)) :
    OutcomeRel R (exec i s) (exec i u) := by
  have hreg := hR.readReg h
  cases i
  case rti => exact absurd rfl hrti
  case siic r => exact absurd rfl (hsiic r)
  case halt => exact hR.advance (hR.setHalted h)
  case nop => exact hR.advance h
  case j => exact hR.setPc_of_eq h (by simp only [relTarget, hR.nextPc h])
  case jr => exact hR.setPc_of_eq h (by simp only [hreg])
  case jal =>
    simp only [Machine.exec, execJal, relTarget, hR.nextPc h]
    exact hR.setPc _ (hR.writeReg _ _ h)
  case jalr =>
    simp only [Machine.exec, execJalr, hreg, hR.nextPc h]
    exact hR.setPc _ (hR.writeReg _ _ h)
  case bnez | beqz | bltz | bgez => exact hR.branchIf h _ (by simp only [hreg])
  case ld =>
    simp only [Machine.exec, execLd, hreg, hload]
    exact outcomeRel_onOk fun v => hR.writeBack h rfl
  case st =>
    simp only [Machine.exec, execSt, hreg]
    exact outcomeRel_storeWord_of_even fun he => hR.advance (hstore _ _ he)
  case stu =>
    simp only [Machine.exec, execStu, hreg]
    exact outcomeRel_storeWord_of_even fun he => hR.writeBack (hstore _ _ he) rfl
  all_goals exact hR.writeBack h (by simp only [hreg])

end WriteCongr

/-! ## The odd pc (rule R47) -/

theorem fetchWord_odd {s : State} (h : s.pc.toNat % 2 = 1) : fetchWord s = .error (.misaligned s.pc) := by
  simp [fetchWord, (isOdd_iff s.pc).mpr h]

theorem writeCongr_withExc (b : Bool) : WriteCongr fun s u => u = withExc b s where
  regs := by rintro s _ rfl; rfl
  pc := by rintro s _ rfl; rfl
  writeReg := by rintro s _ r v rfl; rfl
  setPc := by rintro s _ p rfl; rfl
  setHalted := by rintro s _ rfl; rfl

/-- An instruction but SIIC and RTI does not see `EXC_IMPLEMENTED` (rule R205). -/
theorem outcomeRel_exec_withExc {i : Instr} (hrti : i ≠ .rti) (hsiic : ∀ r, i ≠ .siic r) (b : Bool) (s : State) :
    OutcomeRel (fun t u => u = withExc b t) (exec i s) (exec i (withExc b s)) :=
  (writeCongr_withExc b).exec rfl hrti hsiic (fun _ => rfl) fun _ _ _ => rfl

theorem pcRule_withExc (b : Bool) (i : Instr) (s : State) : pcRule i (withExc b s) = pcRule i s := by
  cases i <;> rfl

/-- Where the pc goes under either `EXC_IMPLEMENTED`: as the table of rule R27 has it, but for a deferred RTI. -/
theorem pc_of_exec {i : Instr} {s t : State} (hw : i.WellFormed) (h : exec i s = .next t) :
    t.pc = pcRule i s ∨ t.pc = s.pc + 2 := by
  by_cases hx : s.cfg.excImplemented = true
  · exact .inl (pcAdvancesByTheTable i s t hw hx h)
  by_cases hrti : i = .rti
  · subst hrti
    simp only [exec, execRti, hx] at h
    exact .inr (pc_of_next h rfl)
  have hsiic : ∀ r, i ≠ .siic r := by
    rintro r rfl
    simp [exec, execSiic, hx] at h
  have hrel := outcomeRel_exec_withExc hrti hsiic true s
  rw [h] at hrel
  obtain ⟨_, hu, rfl⟩ := hrel.exists_next
  exact .inl ((pcAdvancesByTheTable i _ _ hw rfl hu).trans (pcRule_withExc true i s))

theorem toNat_add_two_mod_two (a : Word) : (a + 2).toNat % 2 = a.toNat % 2 := by
  rw [BitVec.toNat_add]
  have : (2 : Word).toNat = 2 := rfl
  omega

/-- An odd sum has an odd summand, modulo 2^16 too. -/
theorem odd_of_odd_add_ofInt {a : Word} {d : Int} (h : (a + BitVec.ofInt 16 d).toNat % 2 = 1) :
    d % 2 = 1 ∨ a.toNat % 2 = 1 := by
  rw [BitVec.toNat_add, BitVec.toNat_ofInt] at h
  omega

theorem odd_of_odd_relTarget {s : State} {d : Int} (he : s.pc.toNat % 2 = 0)
    (h : (s.pc + 2 + BitVec.ofInt 16 d).toNat % 2 = 1) : d % 2 = 1 := by
  have hs := toNat_add_two_mod_two s.pc
  rcases odd_of_odd_add_ofInt h with hd | ha
  · exact hd
  · omega

/-- Settles O43: the odd pc by the fetch; the ways to one by the rows of rule R27's table, of which the rest advance. -/
theorem oddPcFaultsAtTheFetch : Obligations.OddPcFaultsAtTheFetch := by
  refine ⟨fun s hrun ho => by rw [step_of_running hrun, fetchWord_odd ho, onOk_error], ?_⟩
  intro i s t hw he h ho
  have hnext : (s.pc + 2).toNat % 2 = 0 := (toNat_add_two_mod_two s.pc).trans he
  rcases pc_of_exec hw h with hpc | hpc <;> rw [hpc] at ho
  case inr => omega
  cases i <;> simp only [pcRule] at ho
  case j d => exact .inl ⟨d, .inl rfl, odd_of_odd_relTarget he ho⟩
  case jal d => exact .inl ⟨d, .inr rfl, odd_of_odd_relTarget he ho⟩
  case bnez r d | bgez r d =>
    refine .inr (.inl ⟨r, d, by simp, ?_⟩)
    split at ho
    · omega
    · exact odd_of_odd_relTarget he ho
  case beqz r d | bltz r d =>
    refine .inr (.inl ⟨r, d, by simp, ?_⟩)
    split at ho
    · exact odd_of_odd_relTarget he ho
    · omega
  case jr r d | jalr r d => exact .inr (.inr (.inl ⟨r, d, by simp, odd_of_odd_add_ofInt ho⟩))
  case rti => exact .inr (.inr (.inr ⟨rfl, ho⟩))
  case siic => exact absurd ho (by decide)
  all_goals omega

/-! ## The byte order (rule R45) -/

theorem joinWord_otherEndian (e : Endian) (b0 b1 : Byte) : joinWord (otherEndian e) b1 b0 = joinWord e b0 b1 := by
  cases e <;> rfl

theorem lowAddrByte_otherEndian (e : Endian) (v : Word) : lowAddrByte (otherEndian e) v = highAddrByte e v := by
  cases e <;> rfl

theorem highAddrByte_otherEndian (e : Endian) (v : Word) : highAddrByte (otherEndian e) v = lowAddrByte e v := by
  cases e <;> rfl

theorem Memory.readByte_congr {m n : Memory} {a b : Nat} (h : n.get b = m.get a) (z : MemInit) :
    n.readByte z b = m.readByte z a := by
  simp only [Memory.readByte, h]

/-- The same word is read from a memory and, in the other byte order, from the memory with exchanged bytes. -/
theorem BytesExchanged.readWord {m n : Memory} (h : BytesExchanged m n) (c : Config) (a : Word) :
    readWord { c with endian := otherEndian c.endian } n a = readWord c m a := by
  by_cases ho : isOdd a = true
  · simp [Machine.readWord, ho]
  · obtain ⟨h0, h1⟩ := h a.toNat ((isOdd_eq_false_iff a).mp (by simpa using ho))
    simp only [Machine.readWord, ho, Memory.readByte_congr h0, Memory.readByte_congr h1]
    cases m.readByte c.memInit a.toNat <;> cases m.readByte c.memInit (a.toNat + 1) <;>
      simp [joinWord_otherEndian]

/-- A word written in either byte order leaves the bytes exchanged. -/
theorem BytesExchanged.setWord {m n : Memory} (h : BytesExchanged m n) (e : Endian) {a : Word} (ha : a.toNat % 2 = 0)
    (v : Word) : BytesExchanged (m.setWord e a v) (n.setWord (otherEndian e) a v) := by
  intro b hb
  obtain ⟨h0, h1⟩ := h b hb
  simp only [Memory.get_setWord, lowAddrByte_otherEndian, highAddrByte_otherEndian, h0, h1]
  have hne : b ≠ a.toNat + 1 := by omega
  have hne' : b + 1 ≠ a.toNat := by omega
  by_cases hba : b = a.toNat <;> simp [hba, hne, hne']

theorem writeCongr_endianMirror : WriteCongr EndianMirror where
  regs := fun ⟨_, hregs, _⟩ => hregs
  pc := fun ⟨_, _, hpc, _⟩ => hpc
  writeReg := fun r v ⟨hcfg, hregs, hrest⟩ => ⟨hcfg, congrArg (·.set r v) hregs, hrest⟩
  setPc := fun _ ⟨hcfg, hregs, _, hrest⟩ => ⟨hcfg, hregs, rfl, hrest⟩
  setHalted := fun ⟨hcfg, hregs, hpc, hepc, hstored, _, hmems⟩ => ⟨hcfg, hregs, hpc, hepc, hstored, rfl, hmems⟩

namespace EndianMirror
variable {s t : State}

theorem halted (h : EndianMirror s t) : t.halted = s.halted := by
  obtain ⟨-, -, -, -, -, hhalted, -, -⟩ := h
  exact hhalted

theorem epc (h : EndianMirror s t) : t.epc = s.epc := by
  obtain ⟨-, -, -, hepc, -⟩ := h
  exact hepc

theorem excImplemented (h : EndianMirror s t) : t.cfg.excImplemented = s.cfg.excImplemented := by
  obtain ⟨hcfg, -⟩ := h
  simp only [hcfg]

theorem setEpc (h : EndianMirror s t) (v : Word) : EndianMirror (setEpc v s) (setEpc v t) := by
  obtain ⟨hcfg, hregs, hpc, -, hrest⟩ := h
  exact ⟨hcfg, hregs, hpc, rfl, hrest⟩

theorem afterStore (h : EndianMirror s t) {a : Word} (ha : a.toNat % 2 = 0) (v : Word) :
    EndianMirror (afterStore a v s) (afterStore a v t) := by
  obtain ⟨hcfg, hregs, hpc, hepc, hstored, hhalted, hmem, himem⟩ := h
  refine ⟨hcfg, hregs, hpc, hepc, ?_, hhalted, ?_, himem⟩
  · simp only [afterStore_stored, hstored]
  · simp only [afterStore_mem, hcfg]
    exact hmem.setWord _ ha v

theorem loadWord (h : EndianMirror s t) (a : Word) : loadWord a t = loadWord a s := by
  obtain ⟨hcfg, -, -, -, -, -, hmem, -⟩ := h
  simp only [Machine.loadWord, hcfg, hmem.readWord]

theorem fetchWord (h : EndianMirror s t) : fetchWord t = fetchWord s := by
  obtain ⟨hcfg, -, hpc, -, hstored, -, hmem, himem⟩ := h
  simp only [Machine.fetchWord, hcfg, hpc, hstored, hmem.readWord, himem.readWord]

/-- SIIC and RTI do the same to both machines, whose EPC and `EXC_IMPLEMENTED` are the same; the other instructions see
memory through loads and stores alone. -/
theorem exec (h : EndianMirror s t) (i : Instr) : OutcomeRel EndianMirror (exec i s) (exec i t) := by
  by_cases hrti : i = .rti
  · subst hrti
    by_cases hx : s.cfg.excImplemented = true <;> simp only [Machine.exec, execRti, h.excImplemented, hx]
    · exact writeCongr_endianMirror.setPc_of_eq h h.epc
    · exact writeCongr_endianMirror.advance h
  by_cases hsiic : ∃ r, i = .siic r
  · obtain ⟨r, rfl⟩ := hsiic
    by_cases hx : s.cfg.excImplemented = true <;> simp only [Machine.exec, execSiic, h.excImplemented, hx]
    · simp only [raiseIllegalOp, writeCongr_endianMirror.nextPc h]
      exact writeCongr_endianMirror.setPc _ (h.setEpc _)
    · exact rfl
  exact writeCongr_endianMirror.exec h hrti (not_exists.mp hsiic) h.loadWord fun _ v ha => h.afterStore ha v

end EndianMirror

/-- Settles O57: both machines fetch the same word, and the instruction it decodes to keeps the one the mirror of the
other. -/
theorem byteOrderIsNotObservable : Obligations.ByteOrderIsNotObservable := by
  intro s t h
  cases hrun : s.halted with
  | true =>
    rw [step_of_halted hrun, step_of_halted (h.halted.trans hrun)]
    exact h
  | false =>
    rw [step_of_running hrun, step_of_running (h.halted.trans hrun), h.fetchWord]
    exact outcomeRel_onOk fun w => h.exec (decode w)

end Sys2Proof.Machine

/-! PROOF. The encoding of spec/30_encoding.md: every word decodes to an instruction its encoding can hold (R71), which packs
to the word with its ignored bits 0 (R73). -/

namespace Sys2Proof.Machine

/-! ## The operands of a decoded word (rules R66, R67, R71) -/

section
variable (w : Word)

theorem simm5Field_inRange : InSimm5 (simm5Field w) := by
  have hl := BitVec.le_toInt (w.extractLsb' 0 5)
  have hu := BitVec.toInt_lt (x := w.extractLsb' 0 5)
  unfold simm5Field
  omega

theorem simm8Field_inRange : InSimm8 (simm8Field w) := by
  have hl := BitVec.le_toInt (w.extractLsb' 0 8)
  have hu := BitVec.toInt_lt (x := w.extractLsb' 0 8)
  unfold simm8Field
  omega

theorem disp11Field_inRange : InDisp11 (disp11Field w) := by
  have hl := BitVec.le_toInt (w.extractLsb' 0 11)
  have hu := BitVec.toInt_lt (x := w.extractLsb' 0 11)
  unfold disp11Field
  omega

theorem uimm5Field_inRange : InUimm5 (uimm5Field w) := Nat.le_of_lt_succ (w.extractLsb' 0 5).isLt

theorem uimm8Field_inRange : InUimm8 (uimm8Field w) := Nat.le_of_lt_succ (w.extractLsb' 0 8).isLt

theorem shamtField_inRange : InShamt (shamtField w) := Nat.le_of_lt_succ (w.extractLsb' 0 4).isLt

theorem decodeShift_wellFormed : (decodeShift w).WellFormed := by
  unfold decodeShift
  split <;> rfl

theorem decodeArith_wellFormed : (decodeArith w).WellFormed := by
  unfold decodeArith
  split <;> rfl

/-- Every word decodes to an instruction whose operands its encoding can hold. Case `h_n` is opcode `n - 1`. -/
theorem decode_wellFormed : (decode w).WellFormed := by
  unfold decode
  split
  case h_5 | h_7 => exact decide_eq_true (disp11Field_inRange w)
  case h_6 | h_8 | h_13 | h_14 | h_15 | h_16 | h_25 => exact decide_eq_true (simm8Field_inRange w)
  case h_9 | h_10 | h_17 | h_18 | h_20 => exact decide_eq_true (simm5Field_inRange w)
  case h_11 | h_12 => exact decide_eq_true (uimm5Field_inRange w)
  case h_19 => exact decide_eq_true (uimm8Field_inRange w)
  case h_21 | h_22 | h_23 | h_24 => exact decide_eq_true (shamtField_inRange w)
  case h_27 => exact decodeShift_wellFormed w
  case h_28 => exact decodeArith_wellFormed w
  case h_33 hlt _ => exact absurd hlt (by omega)
  all_goals rfl

end

/-! ## The fields of a word packed again, format by format (rules R61 to R64, R73) -/

/-- A field of a word, placed where it was read, is the word without its other bits. -/
theorem place_extractLsb' (w : Word) (lo n : Nat) :
    place (w.extractLsb' lo n) lo = w &&& place (BitVec.allOnes n) lo := by
  refine field_ext fun i hi => ?_
  simp only [BitVec.getLsbD_and, getLsbD_place, BitVec.getLsbD_extractLsb', BitVec.getLsbD_allOnes]
  by_cases hlo : lo ≤ i
  · simp [hi, hlo, Nat.add_sub_cancel' hlo, Bool.and_comm]
  · simp [hlo]

theorem place_zero (w : Word) (lo n : Nat) : place (0 : BitVec n) lo = w &&& 0 := by simp [place]

theorem place_sField (w : Word) : place (regBits (sField w)) 8 = w &&& 0x0700 := place_extractLsb' w 8 3

theorem place_tField (w : Word) : place (regBits (tField w)) 5 = w &&& 0x00E0 := place_extractLsb' w 5 3

theorem place_dField (w : Word) : place (regBits (dField w)) 2 = w &&& 0x001C := place_extractLsb' w 2 3

theorem place_simm5Field (w : Word) : place (BitVec.ofInt 5 (simm5Field w)) 0 = w &&& 0x001F := by
  rw [simm5Field, BitVec.ofInt_toInt]
  exact place_extractLsb' w 0 5

theorem place_uimm5Field (w : Word) : place (BitVec.ofNat 5 (uimm5Field w)) 0 = w &&& 0x001F := by
  rw [uimm5Field, BitVec.ofNat_toNat, BitVec.setWidth_eq]
  exact place_extractLsb' w 0 5

/-- The shift amount leaves `inst[4]` 0. -/
theorem place_shamtField (w : Word) : place (BitVec.ofNat 5 (shamtField w % 16)) 0 = w &&& 0x000F := by
  rw [Nat.mod_eq_of_lt (Nat.lt_succ_of_le (shamtField_inRange w)), shamtField, BitVec.ofNat_toNat, place,
    BitVec.setWidth_setWidth (by decide)]
  exact place_extractLsb' w 0 4

theorem place_simm8Field (w : Word) : place (BitVec.ofInt 8 (simm8Field w)) 0 = w &&& 0x00FF := by
  rw [simm8Field, BitVec.ofInt_toInt]
  exact place_extractLsb' w 0 8

theorem place_uimm8Field (w : Word) : place (BitVec.ofNat 8 (uimm8Field w)) 0 = w &&& 0x00FF := by
  rw [uimm8Field, BitVec.ofNat_toNat, BitVec.setWidth_eq]
  exact place_extractLsb' w 0 8

theorem place_disp11Field (w : Word) : place (BitVec.ofInt 11 (disp11Field w)) 0 = w &&& 0x07FF := by
  rw [disp11Field, BitVec.ofInt_toInt]
  exact place_extractLsb' w 0 11

section
variable {w : Word} {op : BitVec 5}

theorem place_opcode (h : opcodeField w = op.toFin) : place op 11 = w &&& 0xF800 := by
  obtain rfl := BitVec.toFin_inj.mp h
  exact place_extractLsb' w 11 5

theorem place_ext {ext : BitVec 2} (h : extField w = ext.toFin) : place ext 0 = w &&& 0x0003 := by
  obtain rfl := BitVec.toFin_inj.mp h
  exact place_extractLsb' w 0 2

/-- Each format joins the masks of its fields; here the J-format. -/
theorem packJ_eq_and {d : BitVec 11} {m : Word} (h : opcodeField w = op.toFin) (hd : place d 0 = w &&& m) :
    packJ op d = w &&& (0xF800 ||| m) := by
  rw [packJ, place_opcode h, hd, BitVec.and_or_distrib_left]

theorem packI1_eq_and {imm : BitVec 5} {m : Word} (h : opcodeField w = op.toFin) (hi : place imm 0 = w &&& m) :
    packI1 op (sField w) (tField w) imm = w &&& (0xFFE0 ||| m) := by
  rw [packI1, place_opcode h, place_sField, place_tField, hi]
  simp only [← BitVec.and_or_distrib_left]
  rfl

theorem packI2_eq_and {imm : BitVec 8} {m : Word} (h : opcodeField w = op.toFin) (hi : place imm 0 = w &&& m) :
    packI2 op (sField w) imm = w &&& (0xFF00 ||| m) := by
  rw [packI2, place_opcode h, place_sField, hi]
  simp only [← BitVec.and_or_distrib_left]
  rfl

theorem packR_eq_and {t : Reg} {ext : BitVec 2} {m n : Word} (h : opcodeField w = op.toFin)
    (ht : place (regBits t) 5 = w &&& m) (he : place ext 0 = w &&& n) :
    packR op (sField w) t (dField w) ext = w &&& (0xFF00 ||| m ||| 0x001C ||| n) := by
  rw [packR, place_opcode h, place_sField, place_dField, ht, he]
  simp only [← BitVec.and_or_distrib_left]
  rfl

theorem encode_decodeShift (h : opcodeField w = 26) : encode (decodeShift w) = w &&& 0xFFFF := by
  unfold decodeShift
  split <;> exact packR_eq_and h (place_tField w) (place_ext ‹_›)

theorem encode_decodeArith (h : opcodeField w = 27) : encode (decodeArith w) = w &&& 0xFFFF := by
  unfold decodeArith
  split <;> exact packR_eq_and h (place_tField w) (place_ext ‹_›)

end

/-! ## Decode, then encode (rule R73) -/

/-- Encoding what a word decodes to gives the word with its ignored bits 0. Case `h_n` is opcode `n - 1`. -/
theorem encode_decode (w : Word) : encode (decode w) = w &&& significantBits w := by
  rw [significantBits, opcodeField_eq, decode]
  split <;> rename_i h <;> rw [h]
  case h_1 | h_2 | h_4 => exact packJ_eq_and h (place_zero w 0 11)
  case h_3 => exact packI2_eq_and h (place_zero w 0 8)
  case h_5 | h_7 => exact packJ_eq_and h (place_disp11Field w)
  case h_6 | h_8 | h_13 | h_14 | h_15 | h_16 | h_25 => exact packI2_eq_and h (place_simm8Field w)
  case h_9 | h_10 | h_17 | h_18 | h_20 => exact packI1_eq_and h (place_simm5Field w)
  case h_11 | h_12 => exact packI1_eq_and h (place_uimm5Field w)
  case h_19 => exact packI2_eq_and h (place_uimm8Field w)
  case h_21 | h_22 | h_23 | h_24 => exact packI1_eq_and h (place_shamtField w)
  case h_26 => exact packR_eq_and h (place_zero w 5 3) (place_zero w 0 2)
  case h_27 => exact encode_decodeShift h
  case h_28 => exact encode_decodeArith h
  case h_29 | h_30 | h_31 | h_32 => exact packR_eq_and h (place_tField w) (place_zero w 0 2)
  case h_33 hlt => exact absurd hlt (by omega)

/-! ## Encode, then decode -/

theorem toInt_ofInt_simm5 {imm : Int} (h : InSimm5 imm) : (BitVec.ofInt 5 imm).toInt = imm :=
  toInt_ofInt_of_range (by decide) (by norm_num; omega) (by norm_num; omega)

theorem toInt_ofInt_simm8 {imm : Int} (h : InSimm8 imm) : (BitVec.ofInt 8 imm).toInt = imm :=
  toInt_ofInt_of_range (by decide) (by norm_num; omega) (by norm_num; omega)

theorem toInt_ofInt_disp11 {disp : Int} (h : InDisp11 disp) : (BitVec.ofInt 11 disp).toInt = disp :=
  toInt_ofInt_of_range (by decide) (by norm_num; omega) (by norm_num; omega)

/-- No operand in its range is lost by the encoding. -/
theorem decode_encode {i : Instr} (h : i.WellFormed) : decode (encode i) = i := by
  cases i <;> simp only [Instr.WellFormed, Instr.wellFormed, decide_eq_true_eq] at h <;> simp only [encode, decode]
  case j | jal => simp [toInt_ofInt_disp11 h]
  case jr | jalr | bnez | beqz | bltz | bgez | lbi => simp [toInt_ofInt_simm8 h]
  case subi | addi | st | ld | stu => simp [toInt_ofInt_simm5 h]
  case andni | xori | slbi | roli | slli | rori | srli => simp [Nat.lt_succ_of_le h]
  case rol | sll | ror | srl => simp [decodeShift]
  case add | sub | xor | andn => simp [decodeArith]
  all_goals simp

/-! ## The bits that decoding looks at (rule R73) -/

/-- Decoding looks at the whole opcode. -/
theorem significantBits_and_opcodeMask (w : Word) : significantBits w &&& 0xF800 = 0xF800 := by
  unfold significantBits
  dsimp only
  split_ifs <;> rfl

theorem significantBits_congr {v w : Word} (h : opcodeField v = opcodeField w) :
    significantBits v = significantBits w := by
  simp only [significantBits, opcodeField_eq, h]

/-- Words that agree on the bits decoding looks at have the same opcode. -/
theorem opcodeField_of_significantBits {v w : Word} (h : v &&& significantBits w = w &&& significantBits w) :
    opcodeField v = opcodeField w := by
  have hm : v &&& 0xF800 = w &&& 0xF800 := by
    rw [← significantBits_and_opcodeMask w, ← BitVec.and_assoc, h, BitVec.and_assoc]
  rw [opcodeField_of_mask hm]
  exact (opcodeField_of_mask rfl).symm

/-- The ignored bits do not matter: both words have the same canonical word. -/
theorem decode_of_significantBits {v w : Word} (h : v &&& significantBits w = w &&& significantBits w) :
    decode v = decode w := by
  have hs := significantBits_congr (opcodeField_of_significantBits h)
  calc decode v = decode (encode (decode v)) := (decode_encode (decode_wellFormed v)).symm
    _ = decode (encode (decode w)) := by rw [encode_decode, encode_decode, hs, h]
    _ = decode w := decode_encode (decode_wellFormed w)

/-- Settles O3: every word decodes well-formed and encodes back to its significant bits, and so, encoding losing no operand,
words that agree on those bits decode alike; the meaning of SIIC does not name its register. -/
theorem ignoredBitsDoNotMatter : Obligations.IgnoredBitsDoNotMatter :=
  ⟨fun w => ⟨decode_wellFormed w, encode_decode w, fun _ => decode_of_significantBits⟩, fun _ _ _ => rfl⟩

end Sys2Proof.Machine

/-! PROOF. The jumps of spec/40_jumps.md: the target of J (R100), the target and the link of JAL (R101), and the fetch fault
of either at an odd target. -/

namespace Sys2Proof.Machine

/-! ## Rows of one opcode (rule R71) -/

/-- A row whose mask is the opcode's holds the words of that opcode. -/
theorem rowDecodes_of_opcode {pat : Word} {f : Word → Instr}
    (h : ∀ w, opcodeField w = opcodeField pat → decode w = f w) : RowDecodes 0xF800 pat f :=
  fun w hw => h w (opcodeField_of_mask hw)

theorem rowDecodes_j : RowDecodes 0xF800 0x2000 fun w => .j (fieldInt 10 0 w) :=
  rowDecodes_of_opcode fun w h => by
    rw [decode, h, disp11Field_eq]
    rfl

theorem rowDecodes_jal : RowDecodes 0xF800 0x3000 fun w => .jal (fieldInt 10 0 w) :=
  rowDecodes_of_opcode fun w h => by
    rw [decode, h, disp11Field_eq]
    rfl

/-! ## The effect of a jump whose displacement its field can hold -/

section
variable {disp : Int} (h : InDisp11 disp) (s : State)
include h

theorem exec_j : exec (.j disp) s = .next (setPc (s.pc + 2 + BitVec.ofInt 16 disp) s) := by
  simp only [exec, execJ, relTarget, nextPc_eq, disp11_eq h]

theorem exec_jal :
    exec (.jal disp) s = .next (setPc (s.pc + 2 + BitVec.ofInt 16 disp) (writeReg linkReg (s.pc + 2) s)) := by
  simp only [exec, execJal, relTarget, nextPc_eq, disp11_eq h]

end

/-! ## The fetch fault at an odd target (rule R47) -/

/-- From an even pc, an odd displacement leads to an odd target, modulo 2^16 too. -/
theorem relTarget_odd {a : Word} {d : Int} (ha : a.toNat % 2 = 0) (hd : d % 2 = 1) :
    (a + 2 + BitVec.ofInt 16 d).toNat % 2 = 1 := by
  have hnext := toNat_add_two_mod_two a
  rw [BitVec.toNat_add, BitVec.toNat_ofInt]
  omega

/-- The step after a jump of an odd displacement, from a state that the jump left running. -/
theorem step_of_odd_displacement {s t : State} {d : Int} (hpc : t.pc = s.pc + 2 + BitVec.ofInt 16 d)
    (hrun : t.halted = false) (he : s.pc.toNat % 2 = 0) (hd : d % 2 = 1) :
    step t = .fault (.misaligned (s.pc + 2 + BitVec.ofInt 16 d)) := by
  rw [← hpc]
  exact oddPcFaultsAtTheFetch.1 t hrun (hpc ▸ relTarget_odd he hd)

/-! ## The obligations -/

/-- Settles O18: the effect of J moves the pc alone, to an odd address where the displacement is odd. -/
theorem jumpAddsDisplacement : Obligations.JumpAddsDisplacement :=
  ⟨rowDecodes_j, fun _ s h => ⟨movesPc_intro (exec_j h s) rfl, fun hd he hrun =>
    ⟨_, exec_j h s, step_of_odd_displacement rfl hrun he hd⟩⟩⟩

/-- Settles O19: the effect of JAL writes R7 and the pc, and R7 holds the link when the next fetch faults. -/
theorem jalLinksAndAddsDisplacement : Obligations.JalLinksAndAddsDisplacement :=
  ⟨rowDecodes_jal, fun _ s h => ⟨writesReg_intro (exec_jal h s) rfl, fun hd he hrun =>
    ⟨_, exec_jal h s, by simp, step_of_odd_displacement rfl hrun he hd⟩⟩⟩

end Sys2Proof.Machine

/-! PROOF. The ALU and shift instructions with an immediate of spec/41_alu_immediate.md: their rows (I-format 1), the value
each computes from the operands its field can hold (R110 to R117), and its write to Rd. -/

namespace Sys2Proof.Machine

/-! ## Rows of I-format 1 (rule R62) -/

/-- The row of an I-format 1 opcode, for each of the readings `g` that the decoder makes of the immediate (rules R66, R67)
and the same reading `f` as a number of the word. -/
theorem rowDecodes_formatI1 {α : Type} {pat : Word} {c : Reg → Reg → α → Instr} {f g : Word → α} (hf : ∀ w, f w = g w)
    (h : ∀ w, opcodeField w = opcodeField pat → decode w = c (tField w) (sField w) (g w)) :
    RowDecodes 0xF800 pat fun w => c (fieldReg 5 w) (fieldReg 8 w) (f w) :=
  rowDecodes_of_opcode fun w hw => by rw [h w hw, tField_eq, sField_eq, hf]

/-! ## The values -/

section
variable (a : Word)

theorem u_sub_simm5 {imm : Int} (h : InSimm5 imm) : Word.u (simm5 imm - a) = (imm - Word.u a) % 65536 := by
  have ha := a.isLt
  rw [simm5_eq h, Word.u, Word.u, BitVec.toNat_sub, BitVec.toNat_ofInt]
  omega

theorem u_add_simm5 {imm : Int} (h : InSimm5 imm) : Word.u (a + simm5 imm) = (Word.u a + imm) % 65536 := by
  rw [simm5_eq h, Word.u, Word.u, BitVec.toNat_add, BitVec.toNat_ofInt]
  omega

/-- The zero-extended immediate has the immediate's bits, and 0 above them. -/
theorem getLsbD_uimm5 {imm : Nat} (h : InUimm5 imm) (i : Nat) : (uimm5 imm).getLsbD i = imm.testBit i := by
  rw [BitVec.getLsbD, uimm5_toNat h]

theorem getLsbD_and_not_uimm5 {imm : Nat} (h : InUimm5 imm) (i : Nat) :
    (a &&& ~~~(uimm5 imm)).getLsbD i = (a.getLsbD i && !imm.testBit i) := by
  rw [BitVec.getLsbD_and, BitVec.getLsbD_not, getLsbD_uimm5 h]
  by_cases hi : i < 16
  · simp [hi]
  · simp [BitVec.getLsbD_of_ge a i (by omega)]

theorem getLsbD_xor_uimm5 {imm : Nat} (h : InUimm5 imm) (i : Nat) :
    (a ^^^ uimm5 imm).getLsbD i = (a.getLsbD i ^^ imm.testBit i) := by
  rw [BitVec.getLsbD_xor, getLsbD_uimm5 h]

end

/-! ## The obligations -/

/-- Settles O4: the immediate stands for itself modulo 2^16, and the subtraction of words is modulo 2^16. -/
theorem subiSubtractsRegisterFromImmediate : Obligations.SubiSubtractsRegisterFromImmediate :=
  ⟨rowDecodes_formatI1 simm5Field_eq fun w h => by rw [decode, h]; rfl,
    fun _ _ _ _ h => writesReg_intro rfl (u_sub_simm5 _ h)⟩

/-- Settles O5: the immediate stands for itself modulo 2^16, and so does the sum of words. -/
theorem addiAddsImmediate : Obligations.AddiAddsImmediate :=
  ⟨rowDecodes_formatI1 simm5Field_eq fun w h => by rw [decode, h]; rfl,
    fun _ _ _ _ h => writesReg_intro rfl (u_add_simm5 _ h)⟩

/-- Settles O6: the complement of the zero-extended immediate has 1 in every bit above 4. -/
theorem andniClearsImmediateBits : Obligations.AndniClearsImmediateBits :=
  ⟨rowDecodes_formatI1 uimm5Field_eq fun w h => by rw [decode, h]; rfl,
    fun _ _ _ _ h => writesReg_intro rfl (getLsbD_and_not_uimm5 _ h)⟩

/-- Settles O7: the zero-extended immediate has 0 in every bit above 4. -/
theorem xoriFlipsImmediateBits : Obligations.XoriFlipsImmediateBits :=
  ⟨rowDecodes_formatI1 uimm5Field_eq fun w h => by rw [decode, h]; rfl,
    fun _ _ _ _ h => writesReg_intro rfl (getLsbD_xor_uimm5 _ h)⟩

/-- Settles O8: the amount is the whole of its field, below 16, where `rotLeft` is `rol` of rule R12. -/
theorem roliRotatesLeft : Obligations.RoliRotatesLeft := by
  refine ⟨rowDecodes_formatI1 shamtField_eq_fieldNat fun w h => by rw [decode, h]; rfl,
    fun _ _ _ _ h => writesReg_intro rfl fun i hi => ?_⟩
  rw [immShamt_eq h]
  exact getLsbD_rotLeft _ (Nat.lt_succ_of_le h) hi

/-- Settles O9: the amount is the whole of its field, and `shiftLeft` multiplies by a power of 2. -/
theorem slliShiftsLeft : Obligations.SlliShiftsLeft := by
  refine ⟨rowDecodes_formatI1 shamtField_eq_fieldNat fun w h => by rw [decode, h]; rfl,
    fun _ _ n _ h => writesReg_intro rfl ?_⟩
  rw [immShamt_eq h]
  exact toNat_shiftLeft _ n

/-- Settles O10: the amount is the whole of its field, below 16, where `rotRight` is `ror` of rule R12. -/
theorem roriRotatesRight : Obligations.RoriRotatesRight := by
  refine ⟨rowDecodes_formatI1 shamtField_eq_fieldNat fun w h => by rw [decode, h]; rfl,
    fun _ _ _ _ h => writesReg_intro rfl fun i hi => ?_⟩
  rw [immShamt_eq h]
  exact getLsbD_rotRight _ (Nat.lt_succ_of_le h) hi

/-- Settles O11: the amount is the whole of its field, and `shiftRight` divides by a power of 2. -/
theorem srliShiftsRight : Obligations.SrliShiftsRight := by
  refine ⟨rowDecodes_formatI1 shamtField_eq_fieldNat fun w h => by rw [decode, h]; rfl,
    fun _ _ n _ h => writesReg_intro rfl ?_⟩
  rw [immShamt_eq h]
  exact toNat_shiftRight _ n

end Sys2Proof.Machine

/-! PROOF. LBI of spec/43_byte_immediate.md: its row (I-format 2), the signed reading of the immediate that its field can hold,
and its write to Rs (R140). -/

namespace Sys2Proof.Machine

/-- The row of an I-format 2 opcode (rule R63), for each of the readings `g` that the decoder makes of the immediate (rules
R66, R67) and the same reading `f` as a number of the word. -/
theorem rowDecodes_formatI2 {α : Type} {pat : Word} {c : Reg → α → Instr} {f g : Word → α} (hf : ∀ w, f w = g w)
    (h : ∀ w, opcodeField w = opcodeField pat → decode w = c (sField w) (g w)) :
    RowDecodes 0xF800 pat fun w => c (fieldReg 8 w) (f w) :=
  rowDecodes_of_opcode fun w hw => by rw [h w hw, sField_eq, hf]

/-- Sign extension to 16 bits keeps the signed reading of an 8-bit immediate. -/
theorem s_simm8 {imm : Int} (h : InSimm8 imm) : Word.s (simm8 imm) = imm := by
  rw [simm8_eq h, Word_s_eq]
  exact toInt_ofInt_of_range (by decide) (by norm_num; omega) (by norm_num; omega)

/-- Settles O16: the word written to Rs is the sign-extended immediate, which reads back as the immediate. -/
theorem lbiLoadsSignedByte : Obligations.LbiLoadsSignedByte :=
  ⟨rowDecodes_formatI2 simm8Field_eq fun w h => by rw [decode, h]; rfl,
    fun _ _ _ h => writesReg_intro rfl (s_simm8 h)⟩

end Sys2Proof.Machine

/-! PROOF. The conditional branches of spec/45_branches.md: their rows (I-format 2), the condition each tests as a fact
about the number in Rs (R160 to R163), and the pc where the condition holds and where it does not (R164). -/

namespace Sys2Proof.Machine

/-! ## The condition of each branch -/

section
variable (rs : Reg) (imm : Int) (s : State)

theorem exec_bnez : exec (.bnez rs imm) s = .next (branchIf (decide (Word.u (readReg rs s) ≠ 0)) imm s) := by
  rw [exec, execBnez, isZero_iff, decide_not]

theorem exec_beqz : exec (.beqz rs imm) s = .next (branchIf (decide (Word.u (readReg rs s) = 0)) imm s) := by
  rw [exec, execBeqz, isZero_iff]

theorem exec_bltz : exec (.bltz rs imm) s = .next (branchIf (decide (Word.s (readReg rs s) < 0)) imm s) := by
  rw [exec, execBltz, isNegative_iff]

theorem exec_bgez : exec (.bgez rs imm) s = .next (branchIf (decide (0 ≤ Word.s (readReg rs s))) imm s) := by
  rw [exec, execBgez, isNegative_iff, ← decide_not, decide_eq_decide.mpr not_lt]

end

/-! ## The pc of a branch whose displacement its field can hold (rule R164) -/

section
variable {i : Instr} {imm : Int} {s : State} {P : Prop} [Decidable P]

theorem movesPc_of_taken (hi : InSimm8 imm) (h : exec i s = .next (branchIf (decide P) imm s)) (hp : P) :
    MovesPc i s (s.pc + 2 + BitVec.ofInt 16 imm) := by
  rw [decide_eq_true hp] at h
  exact movesPc_intro h (congrArg (s.pc + 2 + ·) (simm8_eq hi))

theorem movesPc_of_not_taken (h : exec i s = .next (branchIf (decide P) imm s)) (hp : ¬P) : MovesPc i s (s.pc + 2) := by
  rw [decide_eq_false hp] at h
  exact movesPc_intro h rfl

end

/-! ## The obligations -/

/-- Settles O22: of a word that is zero and one that is not, each meets the condition of one of the two branches. -/
theorem bnezBeqzTestZero : Obligations.BnezBeqzTestZero := by
  refine ⟨rowDecodes_formatI2 simm8Field_eq fun w h => by rw [decode, h]; rfl,
    rowDecodes_formatI2 simm8Field_eq fun w h => by rw [decode, h]; rfl,
    fun rs imm s hi => ⟨fun hne => ?_, fun hz => ?_⟩⟩
  · exact ⟨movesPc_of_taken hi (exec_bnez rs imm s) hne, movesPc_of_not_taken (exec_beqz rs imm s) hne⟩
  · exact ⟨movesPc_of_not_taken (exec_bnez rs imm s) (not_not_intro hz), movesPc_of_taken hi (exec_beqz rs imm s) hz⟩

/-- Settles O23: bit 15 is the sign of the signed reading, and each sign meets the condition of one of the two branches. -/
theorem bltzBgezTestSign : Obligations.BltzBgezTestSign := by
  refine ⟨rowDecodes_formatI2 simm8Field_eq fun w h => by rw [decode, h]; rfl,
    rowDecodes_formatI2 simm8Field_eq fun w h => by rw [decode, h]; rfl,
    fun rs imm s hi => ⟨fun hneg => ?_, fun hnn => ?_⟩⟩
  · exact ⟨movesPc_of_taken hi (exec_bltz rs imm s) hneg, movesPc_of_not_taken (exec_bgez rs imm s) (not_le_of_gt hneg)⟩
  · exact ⟨movesPc_of_not_taken (exec_bltz rs imm s) (not_lt_of_ge hnn), movesPc_of_taken hi (exec_bgez rs imm s) hnn⟩

end Sys2Proof.Machine

/-! PROOF. The R-format ALU and shift instructions of spec/46_alu_register.md: their rows (an opcode with its extension,
and BTR's opcode alone), the value each computes from two registers (R171 to R179), and its write to Rd. -/

namespace Sys2Proof.Machine

/-! ## Rows of the R-format whose extension selects the instruction (rules R64, R72) -/

/-- A row whose mask is the opcode and the extension holds the words of both. -/
theorem rowDecodes_formatR_ext {pat : Word} {c : Reg → Reg → Reg → Instr}
    (h : ∀ w, opcodeField w = opcodeField pat → extField w = extField pat →
      decode w = c (dField w) (sField w) (tField w)) :
    RowDecodes 0xF803 pat fun w => c (fieldReg 2 w) (fieldReg 8 w) (fieldReg 5 w) := fun w hw => by
  rw [h w (opcodeField_of_extMask hw) (extField_of_extMask hw), ← dField_eq, ← sField_eq, ← tField_eq]

/-! ## The values -/

section
variable (a b : Word)

theorem u_add : Word.u (a + b) = (Word.u a + Word.u b) % 65536 := by
  rw [Word.u, Word.u, Word.u, BitVec.toNat_add]
  omega

theorem u_sub : Word.u (a - b) = (Word.u a - Word.u b) % 65536 := by
  have hb := b.isLt
  rw [Word.u, Word.u, Word.u, BitVec.toNat_sub]
  omega

/-- Clearing the bits of `b` is the and with its complement, at every index: above bit 15 no word has a bit set. -/
theorem getLsbD_and_not (i : Nat) : (a &&& ~~~b).getLsbD i = (a.getLsbD i && !b.getLsbD i) := by
  rw [BitVec.getLsbD_and, BitVec.getLsbD_not]
  by_cases hi : i < 16
  · simp [hi]
  · simp [BitVec.getLsbD_of_ge a i (by omega)]

end

/-! ## The obligations -/

/-- Settles O24: the sum of words is modulo 2^16. -/
theorem addAddsRegisters : Obligations.AddAddsRegisters :=
  ⟨rowDecodes_formatR_ext fun w h hx => by rw [decode, h, decodeArith, hx]; rfl,
    fun _ _ _ _ => writesReg_intro rfl (u_add _ _)⟩

/-- Settles O25: Rt is the minuend, and the difference of words is modulo 2^16. -/
theorem subSubtractsRsFromRt : Obligations.SubSubtractsRsFromRt :=
  ⟨rowDecodes_formatR_ext fun w h hx => by rw [decode, h, decodeArith, hx]; rfl,
    fun _ _ _ _ => writesReg_intro rfl (u_sub _ _)⟩

/-- Settles O26: each bit of the word written is the exclusive or of the two bits read. -/
theorem xorIsBitwise : Obligations.XorIsBitwise :=
  ⟨rowDecodes_formatR_ext fun w h hx => by rw [decode, h, decodeArith, hx]; rfl,
    fun _ _ _ _ => writesReg_intro rfl fun _ => BitVec.getLsbD_xor⟩

/-- Settles O27: it is Rt whose complement is taken. -/
theorem andnClearsBitsOfRt : Obligations.AndnClearsBitsOfRt :=
  ⟨rowDecodes_formatR_ext fun w h hx => by rw [decode, h, decodeArith, hx]; rfl,
    fun _ _ _ _ => writesReg_intro rfl (getLsbD_and_not _ _)⟩

/-- Settles O28: the amount is Rt modulo 16, below 16, where `rotLeft` is `rol` of rule R12. -/
theorem rolRotatesLeft : Obligations.RolRotatesLeft := by
  refine ⟨rowDecodes_formatR_ext fun w h hx => by rw [decode, h, decodeShift, hx]; rfl,
    fun _ _ _ _ => writesReg_intro rfl fun i hi => ?_⟩
  rw [regShamt_eq]
  exact getLsbD_rotLeft _ (Nat.mod_lt _ (by decide)) hi

/-- Settles O29: the amount is Rt modulo 16, and `shiftLeft` multiplies by a power of 2. -/
theorem sllShiftsLeft : Obligations.SllShiftsLeft := by
  refine ⟨rowDecodes_formatR_ext fun w h hx => by rw [decode, h, decodeShift, hx]; rfl,
    fun _ _ _ _ => writesReg_intro rfl ?_⟩
  rw [regShamt_eq]
  exact toNat_shiftLeft _ _

/-- Settles O30: the amount is Rt modulo 16, below 16, where `rotRight` is `ror` of rule R12. -/
theorem rorRotatesRight : Obligations.RorRotatesRight := by
  refine ⟨rowDecodes_formatR_ext fun w h hx => by rw [decode, h, decodeShift, hx]; rfl,
    fun _ _ _ _ => writesReg_intro rfl fun i hi => ?_⟩
  rw [regShamt_eq]
  exact getLsbD_rotRight _ (Nat.mod_lt _ (by decide)) hi

/-- Settles O31: the amount is Rt modulo 16, and `shiftRight` divides by a power of 2. -/
theorem srlShiftsRight : Obligations.SrlShiftsRight := by
  refine ⟨rowDecodes_formatR_ext fun w h hx => by rw [decode, h, decodeShift, hx]; rfl,
    fun _ _ _ _ => writesReg_intro rfl ?_⟩
  rw [regShamt_eq]
  exact toNat_shiftRight _ _

/-- Settles O32: BTR's row is the whole of its opcode, and bit `i` of the word written is bit `15 - i` of Rs. -/
theorem btrReversesBits : Obligations.BtrReversesBits := by
  refine ⟨rowDecodes_of_opcode fun w h => ?_, fun _ _ _ => writesReg_intro rfl fun _ hi => getLsbD_bitReverse _ hi⟩
  rw [decode, h, dField_eq, sField_eq]
  rfl

end Sys2Proof.Machine

/-! PROOF. The set instructions of spec/47_set.md: their rows (R-format, the extension ignored), the condition each tests as a
fact about the numbers in Rs and Rt (R190 to R193), and the write of its truth value to Rd (R194). -/

namespace Sys2Proof.Machine

/-- The row of an R-format opcode that selects the instruction alone, whatever the extension is (rules R64, R71). -/
theorem rowDecodes_formatR {pat : Word} {c : Reg → Reg → Reg → Instr}
    (h : ∀ w, opcodeField w = opcodeField pat → decode w = c (dField w) (sField w) (tField w)) :
    RowDecodes 0xF800 pat fun w => c (fieldReg 2 w) (fieldReg 8 w) (fieldReg 5 w) :=
  rowDecodes_of_opcode fun w hw => by rw [h w hw, dField_eq, sField_eq, tField_eq]

/-! ## The condition of each set instruction -/

section
variable (a b : Word)

theorem isEqual_iff : isEqual a b = decide (Word.u a = Word.u b) := by
  rw [isEqual, beq_eq_decide, Word.u, Word.u, decide_eq_decide, Int.natCast_inj, BitVec.toNat_inj]

theorem isLess_iff : isLess a b = decide (Word.s a < Word.s b) := by
  rw [isLess, Word_s_eq, Word_s_eq]

theorem isLessEq_iff : isLessEq a b = decide (Word.s a ≤ Word.s b) := by
  rw [isLessEq, Word_s_eq, Word_s_eq]

theorem carryOut_iff_u : carryOut a b = decide (65536 ≤ Word.u a + Word.u b) := by
  rw [carryOut_iff, Word.u, Word.u, decide_eq_decide]
  omega

end

/-! ## The truth value (rule R194) -/

theorem truthWord_of_eq_decide {p : Bool} {P : Prop} [Decidable P] (h : p = decide P) :
    truthWord p = if P then 0x0001 else 0x0000 := by
  rw [h, truthWord]
  simp only [decide_eq_true_eq]

/-! ## The obligations -/

/-- Settles O33: two words are equal where their unsigned readings are. -/
theorem seqSetsOnEqual : Obligations.SeqSetsOnEqual :=
  ⟨rowDecodes_formatR fun w h => by rw [decode, h]; rfl,
    fun _ _ _ _ => writesReg_intro rfl (truthWord_of_eq_decide (isEqual_iff _ _))⟩

/-- Settles O34: the signed readings are compared as integers. -/
theorem sltSetsOnLess : Obligations.SltSetsOnLess :=
  ⟨rowDecodes_formatR fun w h => by rw [decode, h]; rfl,
    fun _ _ _ _ => writesReg_intro rfl (truthWord_of_eq_decide (isLess_iff _ _))⟩

/-- Settles O35: the signed readings are compared as integers, with equality true. -/
theorem sleSetsOnLessOrEqual : Obligations.SleSetsOnLessOrEqual :=
  ⟨rowDecodes_formatR fun w h => by rw [decode, h]; rfl,
    fun _ _ _ _ => writesReg_intro rfl (truthWord_of_eq_decide (isLessEq_iff _ _))⟩

/-- Settles O36: bit 16 of the 17-bit sum is set where the sum of the unsigned readings reaches 2^16. -/
theorem scoSetsOnCarryOut : Obligations.ScoSetsOnCarryOut :=
  ⟨rowDecodes_formatR fun w h => by rw [decode, h]; rfl,
    fun _ _ _ _ => writesReg_intro rfl (truthWord_of_eq_decide (carryOut_iff_u _ _))⟩

end Sys2Proof.Machine

/-! PROOF. HALT, NOP, SIIC and RTI of spec/48_special.md: the rows of the first three (R71), what each of these does and
leaves unchanged (R200, R201, R203), and the meaning of SIIC and RTI while they are deferred (R205). -/

namespace Sys2Proof.Machine

/-! ## Effects -/

theorem exec_halt (s : State) : exec .halt s = .next (advance (setHalted s)) := rfl

theorem exec_nop (s : State) : exec .nop s = .next (setPc (s.pc + 2) s) := rfl

section
variable {s : State}

theorem exec_siic_of_implemented (h : s.cfg.excImplemented = true) (rs : Reg) :
    exec (.siic rs) s = .next (raiseIllegalOp s) :=
  if_pos h

theorem exec_siic_of_deferred (h : s.cfg.excImplemented = false) (rs : Reg) :
    exec (.siic rs) s = .fault .unimplementedSiic :=
  if_neg (ne_true_of_eq_false h)

theorem exec_rti_of_deferred (h : s.cfg.excImplemented = false) : exec .rti s = exec .nop s :=
  if_neg (ne_true_of_eq_false h)

end

/-! ## The obligations -/

/-- Settles O37: HALT advances in a halted state, from which every run stays where it is. -/
theorem haltEndsTheRun : Obligations.HaltEndsTheRun :=
  ⟨rowDecodes_of_opcode fun w h => by rw [decode, h]; rfl,
    fun s => ⟨_, exec_halt s, rfl, rfl, SameRegs.refl s, rfl, rfl, SameMemory.refl s,
      fun n => ⟨reaches_self_of_halted rfl n, rfl⟩⟩⟩

/-- Settles O38: the effect of NOP is to move the pc to the next instruction. -/
theorem nopAdvances : Obligations.NopAdvances :=
  ⟨rowDecodes_of_opcode fun w h => by rw [decode, h]; rfl, fun s => movesPc_intro (exec_nop s) rfl⟩

/-- Settles O39: whatever its register, SIIC raises IllegalOp, which writes EPC and the pc alone. -/
theorem siicTakesTheException : Obligations.SiicTakesTheException :=
  ⟨rowDecodes_of_opcode fun w h => by rw [decode, h, sField_eq]; rfl,
    fun rs s hx => ⟨_, exec_siic_of_implemented hx rs, rfl, rfl, SameRegs.refl s, SameMemory.refl s, rfl, rfl⟩⟩

/-- Settles O41: deferred, RTI is NOP, whose effect moves the pc alone, and SIIC stops; every other instruction keeps the
relation of a state to itself under another value of the parameter. -/
theorem deferredSiicAndRti : Obligations.DeferredSiicAndRti := by
  refine ⟨fun s hx => ?_, fun rs s hx => exec_siic_of_deferred hx rs,
    fun i b s hrti hsiic => outcomeRel_exec_withExc hrti hsiic b s⟩
  have hnop := exec_rti_of_deferred hx
  exact ⟨hnop, movesPc_intro (hnop.trans (exec_nop s)) rfl⟩

end Sys2Proof.Machine

/-! PROOF. Reset of spec/70_reset_and_hazards.md: the pc at RESET_PC, and the word there run first (R240, R244). -/

namespace Sys2Proof.Machine

/-- Both memory views hold the image after reset, so the fetch reads it under every `SMC`. -/
theorem fetchView_afterReset (c : Config) (regs : Vector Word 8) (epc : Word) (image : Memory) :
    fetchView (State.afterReset c regs epc image) = image := by
  unfold fetchView
  cases (State.afterReset c regs epc image).cfg.smc with
  | refuse | coherent | split => rfl

/-- Settles O56: `W` is empty after reset, so no `SMC` refuses the first fetch, which reads the image. -/
theorem firstInstructionIsAtResetPc : Obligations.FirstInstructionIsAtResetPc := by
  refine ⟨rfl, rfl, rfl, fun c regs epc image => ⟨rfl, rfl, rfl, fun w he hw => ?_⟩⟩
  have hview := fetchView_afterReset c regs epc image
  exact step_of_holdsWord rfl he (fun _ => List.not_mem_nil) (hview.symm ▸ hw)

end Sys2Proof.Machine

/-! PROOF. The encoding of spec/30_encoding.md, the statements: no operand is lost, and the sample words of
spec/95_test_vectors.md section 3. -/

namespace Sys2Proof.Machine

/-- Settles O2: each format gives back the opcode and the fields packed into it, and an operand in the range of its field is
the reading of that field. -/
theorem decodeOfEncode : Obligations.DecodeOfEncode := fun _ => decode_encode

/-- Settles O1, by running the decoder on the ten words. -/
theorem sampleWordsDecode : Obligations.SampleWordsDecode := by
  unfold Obligations.SampleWordsDecode
  decide

end Sys2Proof.Machine

/-! PROOF. The invariants of the state: what no instruction changes (rules R33, R53), the data of memory in canonical form and in
agreement (R53), and the even EPC (R204), each at reset and over every step. -/

namespace Sys2Proof.Machine

/-! ## From an instruction to a step, and to a run -/

section
variable {P : State → Prop} {s t : State}

/-- What every instruction keeps at an even pc, where alone one is fetched, a step keeps. -/
theorem step_keeps (hexec : ∀ i, s.pc.toNat % 2 = 0 → exec i s = .next t → P t) (hs : P s) (h : step s = .next t) :
    P t := by
  cases hrun : s.halted with
  | true =>
    rw [step_of_halted hrun] at h
    cases h
    exact hs
  | false =>
    obtain ⟨w, hw, hi⟩ := step_next hrun h
    exact hexec (decode w) (fetchWord_even hw) hi

/-- What every instruction keeps, a run keeps. -/
theorem reaches_keeps (hexec : ∀ i s t, P s → exec i s = .next t → P t) {n : Nat} (hs : P s) (h : Reaches n s t) :
    P t := by
  induction n generalizing s with
  | zero => exact reaches_zero.mp h ▸ hs
  | succ n ih =>
    obtain ⟨u, hu, hn⟩ := reaches_succ.mp h
    exact ih (step_keeps (fun i _ => hexec i s u hs) hs hu) hn

end

/-! ## Memory, `W`, the image copy and the parameters (rules R33, R53) -/

section
variable {i : Instr} {s t : State}

theorem mem_stored_of_not_store (hi : ∀ d r k, i ≠ .st d r k ∧ i ≠ .stu d r k) (h : exec i s = .next t) :
    t.mem = s.mem ∧ t.stored = s.stored := by
  rcases exec_cases h with ⟨p, rfl⟩ | ⟨d, p, v, -, rfl⟩ | ⟨-, rfl⟩ | ⟨-, -, -, rfl⟩ | ⟨rd, rs, imm, hst, -, -⟩ |
    ⟨rd, rs, imm, hstu, -, -⟩
  case inr.inr.inr.inr.inl => exact absurd hst (hi rd rs imm).1
  case inr.inr.inr.inr.inr => exact absurd hstu (hi rd rs imm).2
  all_goals exact ⟨rfl, rfl⟩

theorem imem_cfg_of_exec (h : exec i s = .next t) : t.imem = s.imem ∧ t.cfg = s.cfg := by
  rcases exec_cases h with ⟨p, rfl⟩ | ⟨d, p, v, -, rfl⟩ | ⟨-, rfl⟩ | ⟨-, -, -, rfl⟩ | ⟨rd, rs, imm, -, -, rfl⟩ |
    ⟨rd, rs, imm, -, -, rfl⟩ <;> exact ⟨rfl, rfl⟩

end

theorem imem_cfg_of_reaches {n : Nat} {s t : State} (h : Reaches n s t) : t.imem = s.imem ∧ t.cfg = s.cfg := by
  refine reaches_keeps (P := fun u => u.imem = s.imem ∧ u.cfg = s.cfg) (fun i u v hu hi => ?_) ⟨rfl, rfl⟩ h
  obtain ⟨himem, hcfg⟩ := imem_cfg_of_exec hi
  exact ⟨himem.trans hu.1, hcfg.trans hu.2⟩

/-- Settles O51: the frames of one instruction, the second carried through a run. -/
theorem onlyStoresChangeMemory : Obligations.OnlyStoresChangeMemory :=
  ⟨fun _ _ _ => mem_stored_of_not_store, fun _ _ _ => imem_cfg_of_reaches⟩

/-! ## The data of memory (rule R53) -/

namespace MemInv
variable {s t : State}

/-- The invariant is of memory, the image copy and `W` alone. -/
theorem of_eq (h : MemInv s) (hmem : t.mem = s.mem) (himem : t.imem = s.imem) (hstored : t.stored = s.stored) :
    MemInv t where
  memWf := hmem ▸ h.memWf
  imemWf := himem ▸ h.imemWf
  storedWf := hstored ▸ h.storedWf
  storedPresent := by
    rw [hmem, hstored]
    exact h.storedPresent
  imageAgrees := by
    rw [hmem, himem, hstored]
    exact h.imageAgrees

/-- A store writes the two bytes of one word, and puts that word into `W`. -/
theorem afterStore (h : MemInv s) {a : Word} (ha : a.toNat % 2 = 0) (v : Word) : MemInv (afterStore a v s) where
  memWf := Memory.setWord_wf h.memWf ha _ v
  imemWf := h.imemWf
  storedWf := AddrSet.insert_wf h.storedWf a.isLt ha
  storedPresent b hb := by
    rcases (AddrSet.mem_insert _ _ _).mp hb with rfl | hb
    · simp [Memory.get_setWord]
    · obtain ⟨h0, h1⟩ := h.storedPresent b hb
      simp only [afterStore_mem, Memory.get_setWord]
      constructor <;> split_ifs <;> simp [h0, h1]
  imageAgrees b hb := by
    obtain ⟨hne, hb⟩ := not_or.mp (mt (AddrSet.mem_insert _ _ _).mpr hb)
    have h0 : b ≠ a.toNat := by omega
    have h1 : b ≠ a.toNat + 1 := by omega
    simp only [afterStore_mem, afterStore_imem, Memory.get_setWord, h0, h1, if_false]
    exact h.imageAgrees b hb

theorem exec {i : Instr} (h : MemInv s) (hi : exec i s = .next t) : MemInv t := by
  rcases exec_cases hi with ⟨p, rfl⟩ | ⟨d, p, v, -, rfl⟩ | ⟨-, rfl⟩ | ⟨-, -, -, rfl⟩ | ⟨rd, rs, imm, -, he, rfl⟩ |
    ⟨rd, rs, imm, -, he, rfl⟩
  case inr.inr.inr.inr.inl | inr.inr.inr.inr.inr => exact (h.afterStore he _).of_eq rfl rfl rfl
  all_goals exact h.of_eq rfl rfl rfl

theorem afterReset (c : Config) (regs : Vector Word 8) (epc : Word) {image : Memory} (h : image.wf) :
    MemInv (State.afterReset c regs epc image) where
  memWf := h
  imemWf := h
  storedWf := ⟨List.Pairwise.nil, fun _ hb => absurd hb List.not_mem_nil⟩
  storedPresent _ hb := absurd hb List.not_mem_nil
  imageAgrees _ _ := rfl

end MemInv

/-- Settles O54: of what an instruction can do, only a store touches the data of memory, and it keeps the invariant. -/
theorem stepKeepsMemoryConsistent : Obligations.StepKeepsMemoryConsistent :=
  fun _ _ h => step_keeps (fun _ _ => h.exec) h

/-! ## EPC (rule R204) -/

/-- An instruction at an even pc keeps EPC even: SIIC sets it to the even `pc + 2`, and no other writes it. -/
theorem epcEven_of_exec {i : Instr} {s t : State} (hepc : EpcEven s) (he : s.pc.toNat % 2 = 0) (h : exec i s = .next t) :
    EpcEven t := by
  by_cases hi : ∃ r, i = .siic r
  · obtain ⟨r, rfl⟩ := hi
    cases hx : s.cfg.excImplemented with
    | true =>
      obtain rfl := Host.Outcome.next.inj ((exec_siic_of_implemented hx r).symm.trans h)
      exact (toNat_add_two_mod_two s.pc).trans he
    | false => cases (exec_siic_of_deferred hx r).symm.trans h
  · rwa [EpcEven, epc_of_not_siic (not_exists.mp hi) h]

/-- Settles O55: an instruction runs at an even pc alone, the fetch at an odd one being a fault. -/
theorem stepKeepsEpcEven : Obligations.StepKeepsEpcEven :=
  fun _ _ h => step_keeps (fun _ => epcEven_of_exec h) h

/-! ## Reset -/

/-- Settles O53: after reset `W` is empty and both memory views are the image, and EPC is the value given. -/
theorem invariantsHoldAfterReset : Obligations.InvariantsHoldAfterReset :=
  ⟨fun c regs epc _ h => ⟨MemInv.afterReset c regs epc h, id⟩,
    MemInv.afterReset _ _ _ (loadImage_wf .big [] (by simp)), rfl⟩

end Sys2Proof.Machine

/-! PROOF. What does not depend on the parameters: a machine and its copy under other parameters, of the same byte order and the
same `EXC_IMPLEMENTED`, run an instruction alike where a load finds the same (R53 for `SMC`, R58 for `MEM_INIT`). -/

namespace Sys2Proof.Machine

/-! ## An instruction under other parameters -/

/-- The same state, its parameters changed by `f`. -/
def mapCfg (f : Config → Config) (s : State) : State := { s with cfg := f s.cfg }

theorem withSmc_eq_mapCfg (p : Smc) : withSmc p = mapCfg fun c => { c with smc := p } := rfl

theorem withMemInit_eq_mapCfg (z : MemInit) : withMemInit z = mapCfg fun c => { c with memInit := z } := rfl

section
variable (f : Config → Config) (s : State)

@[simp] theorem mapCfg_cfg : (mapCfg f s).cfg = f s.cfg := rfl

@[simp] theorem readReg_mapCfg (r : Reg) : readReg r (mapCfg f s) = readReg r s := rfl

theorem branchIf_mapCfg (c : Bool) (imm : Int) : branchIf c imm (mapCfg f s) = mapCfg f (branchIf c imm s) := by
  cases c <;> rfl

variable {f s} (hend : (f s.cfg).endian = s.cfg.endian)
include hend

/-- Of the parameters a store looks at the byte order alone. -/
theorem afterStore_mapCfg (a v : Word) : afterStore a v (mapCfg f s) = mapCfg f (afterStore a v s) := by
  simp only [afterStore, mapCfg_cfg, hend]
  rfl

/-- Of the parameters SIIC and RTI look at `EXC_IMPLEMENTED`, a store at the byte order, a load at what it finds, and no other
instruction at any. -/
theorem outcomeRel_exec_mapCfg {i : Instr} (hexc : (f s.cfg).excImplemented = s.cfg.excImplemented)
    (hload : ∀ rd rs imm, i = .ld rd rs imm →
      loadWord (effAddr (readReg rs s) imm) (mapCfg f s) = loadWord (effAddr (readReg rs s) imm) s) :
    OutcomeRel (fun t u => u = mapCfg f t) (exec i s) (exec i (mapCfg f s)) := by
  cases i
  case siic | rti =>
    by_cases hx : s.cfg.excImplemented = true <;>
      simp only [exec, execSiic, execRti, mapCfg_cfg, hexc, hx] <;> exact rfl
  case bnez | beqz | bltz | bgez =>
    simp only [exec, execBnez, execBeqz, execBltz, execBgez, readReg_mapCfg, branchIf_mapCfg]
    exact rfl
  case ld rd rs imm =>
    simp only [exec, execLd, readReg_mapCfg, hload rd rs imm rfl]
    exact outcomeRel_onOk fun _ => rfl
  case st | stu =>
    refine outcomeRel_storeWord ?_
    simp only [afterStore_mapCfg hend]
    exact rfl
  all_goals exact rfl

end

/-! ## `SMC` (rule R53) -/

/-- Outside `W` both memory views hold the same word. -/
theorem MemInv.readWord_imem {s : State} (h : MemInv s) {a : Word} (ha : a.toNat ∉ s.stored) (c : Config) :
    readWord c s.imem a = readWord c s.mem a := by
  by_cases ho : isOdd a = true
  · simp only [readWord, ho, if_true]
  · have he : a.toNat % 2 = 0 := (isOdd_eq_false_iff a).mp (by simpa using ho)
    have h0 := h.imageAgrees a.toNat (by rwa [he])
    have h1 := h.imageAgrees (a.toNat + 1) (by rwa [show a.toNat + 1 - (a.toNat + 1) % 2 = a.toNat by omega])
    simp only [readWord, Memory.readByte_congr h0, Memory.readByte_congr h1]

/-- Outside `W` the fetch reads the word of memory, whatever `SMC` is. -/
theorem MemInv.fetchWord_eq {s : State} (h : MemInv s) (hpc : s.pc.toNat ∉ s.stored) :
    fetchWord s = readWord s.cfg s.mem s.pc := by
  rw [fetchWord_of_not_refused fun _ => hpc, fetchView]
  cases s.cfg.smc with
  | refuse | coherent => rfl
  | split => exact h.readWord_imem hpc s.cfg

/-- Under `refuse` a step that does not stop as modified code is from a pc outside `W`. -/
theorem MemInv.pc_not_mem_stored {s : State} (h : MemInv s) (hsmc : s.cfg.smc = .refuse) (hrun : s.halted = false)
    (hstep : ∀ a, step s ≠ .fault (.codeModified a)) : s.pc.toNat ∉ s.stored := fun hmem => by
  obtain ⟨-, he⟩ := h.storedWf.2 _ hmem
  refine hstep s.pc ?_
  rw [step_of_running hrun, fetchWord_refused he hsmc hmem, onOk_error]

theorem MemInv.withSmc {s : State} (h : MemInv s) (p : Smc) : MemInv (withSmc p s) := h.of_eq rfl rfl rfl

/-- Settles O58: outside `W` the fetch finds the same word under each `SMC`, and no instruction looks at `SMC`. -/
theorem smcValuesAgreeOnUnmodifiedCode : Obligations.SmcValuesAgreeOnUnmodifiedCode := by
  intro p s h hsmc hstep
  cases hrun : s.halted with
  | true =>
    rw [step_of_halted hrun, step_of_halted (s := withSmc p s) hrun]
    exact rfl
  | false =>
    have hpc := h.pc_not_mem_stored hsmc hrun hstep
    have hfetch : fetchWord (withSmc p s) = fetchWord s :=
      ((h.withSmc p).fetchWord_eq hpc).trans (h.fetchWord_eq hpc).symm
    rw [step_of_running hrun, step_of_running (s := withSmc p s) hrun, hfetch, withSmc_eq_mapCfg]
    exact outcomeRel_onOk fun w => outcomeRel_exec_mapCfg rfl rfl fun _ _ _ _ => rfl

/-! ## `MEM_INIT` (rule R58) -/

theorem Memory.readByte_unspecified (m : Memory) (a : Nat) : m.readByte .unspecified a = m.get a := by
  rw [Memory.readByte]
  cases m.get a <;> rfl

/-- A word that can be read under `unspecified` has both its bytes, and so is read under any `MEM_INIT`. -/
theorem readWord_of_unspecified {c : Config} {m : Memory} {a v : Word} (hc : c.memInit = .unspecified)
    (h : readWord c m a = .ok v) (z : MemInit) : readWord { c with memInit := z } m a = .ok v := by
  rcases readWord_cases c m a with ⟨-, e⟩ | ⟨-, -, e⟩ | ⟨b0, b1, he, h0, h1, e⟩
  · cases e.symm.trans h
  · cases e.symm.trans h
  · rw [hc, Memory.readByte_unspecified] at h0 h1
    rw [← h, e]
    exact readWord_ok he (Memory.readByte_of_get h0 z) (Memory.readByte_of_get h1 z)

section
variable {s : State} (hc : s.cfg.memInit = .unspecified) (z : MemInit)
include hc

theorem fetchWord_withMemInit {w : Word} (h : fetchWord s = .ok w) : fetchWord (withMemInit z s) = .ok w := by
  have hsmc : s.cfg.smc = .refuse → s.pc.toNat ∉ s.stored := fun hr hmem => by
    cases (fetchWord_refused (fetchWord_even h) hr hmem).symm.trans h
  rw [fetchWord_of_not_refused hsmc] at h
  rw [fetchWord_of_not_refused (s := withMemInit z s) hsmc]
  exact readWord_of_unspecified hc h z

theorem exec_withMemInit {i : Instr} {t : State} (h : exec i s = .next t) :
    exec i (withMemInit z s) = .next (withMemInit z t) := by
  have hrel : OutcomeRel (fun t u => u = withMemInit z t) (exec i s) (exec i (withMemInit z s)) := by
    rw [withMemInit_eq_mapCfg]
    refine outcomeRel_exec_mapCfg rfl rfl fun rd rs imm hi => ?_
    subst hi
    obtain ⟨v, hv, -⟩ := onOk_next h
    exact (readWord_of_unspecified hc hv z).trans hv.symm
  rw [h] at hrel
  obtain ⟨_, hu, rfl⟩ := hrel.exists_next
  exact hu

end

/-- Settles O59: a step that completes under `unspecified` has read no byte without a value, and only such a byte reads
otherwise under `zero`. -/
theorem unspecifiedMemoryIsSafe : Obligations.UnspecifiedMemoryIsSafe := by
  intro s t hc h
  cases hrun : s.halted with
  | true =>
    rw [step_of_halted hrun] at h
    cases h
    exact step_of_halted hrun
  | false =>
    obtain ⟨w, hw, hi⟩ := step_next hrun h
    rw [step_of_running (s := withMemInit .zero s) hrun, fetchWord_withMemInit hc _ hw]
    exact exec_withMemInit hc _ hi

end Sys2Proof.Machine

/-! PROOF. The fetch of a word stored to (R53), of a word without a value (R58), and of a word that the host has placed at the pc
(R243); the word without a value to LD (R58). -/

namespace Sys2Proof.Machine

/-! ## The fetch under each `SMC` (rule R53) -/

section
variable {s : State}

theorem fetchWord_of_refuse (h : s.cfg.smc = .refuse) (hpc : s.pc.toNat ∉ s.stored) :
    fetchWord s = readWord s.cfg s.mem s.pc := by
  rw [fetchWord_of_not_refused fun _ => hpc, fetchView, h]

theorem fetchWord_of_coherent (h : s.cfg.smc = .coherent) : fetchWord s = readWord s.cfg s.mem s.pc := by
  rw [fetchWord_of_not_refused fun hr => (by cases h.symm.trans hr), fetchView, h]

theorem fetchWord_of_split (h : s.cfg.smc = .split) : fetchWord s = readWord s.cfg s.imem s.pc := by
  rw [fetchWord_of_not_refused fun hr => (by cases h.symm.trans hr), fetchView, h]

end

/-- Settles O44: `refuse` stops the fetch from a word of `W`; the other two read the word in memory or in the image copy. -/
theorem fetchOfStoredWordFollowsSmc : Obligations.FetchOfStoredWordFollowsSmc := by
  intro s hrun he hmem
  rw [step_of_running hrun]
  refine ⟨fun hsmc => ?_, fun w hsmc hw => ?_, fun w hsmc hw => ?_⟩
  · rw [fetchWord_refused he hsmc hmem, onOk_error]
  · rw [fetchWord_of_coherent hsmc, readWord_of_holdsWord he hw, onOk_ok]
  · rw [fetchWord_of_split hsmc, readWord_of_holdsWord he hw, onOk_ok]

/-! ## A word without a value (rule R58) -/

section
variable {c : Config} {m : Memory} {a : Word} (ha : a.toNat % 2 = 0)
include ha

theorem readWord_of_unwritten (hc : c.memInit = .unspecified) (h : m.get a.toNat = none ∨ m.get (a.toNat + 1) = none) :
    readWord c m a = .error (.unspecifiedRead a) := by
  simp only [← Memory.readByte_unspecified, ← hc] at h
  rcases readWord_cases c m a with ⟨ho, -⟩ | ⟨-, -, e⟩ | ⟨b0, b1, -, h0, h1, -⟩
  · omega
  · exact e
  · simp [h0, h1] at h

theorem readWord_of_zero (hc : c.memInit = .zero) (h0 : m.get a.toNat = none) (h1 : m.get (a.toNat + 1) = none) :
    readWord c m a = .ok 0 := by
  have hr0 : m.readByte c.memInit a.toNat = some 0 := by simp only [Memory.readByte, h0, hc]
  have hr1 : m.readByte c.memInit (a.toNat + 1) = some 0 := by simp only [Memory.readByte, h1, hc]
  rw [readWord_ok ha hr0 hr1]
  cases c.endian <;> rfl

end

section
variable {rd rs : Reg} {imm : Int} {s : State}

theorem exec_ld_of_ok {v : Word} (h : loadWord (effAddr (readReg rs s) imm) s = .ok v) :
    exec (.ld rd rs imm) s = .next (writeBack rd v s) := by
  rw [exec, execLd, h, onOk_ok]

theorem exec_ld_of_error {f : Fault} (h : loadWord (effAddr (readReg rs s) imm) s = .error f) :
    exec (.ld rd rs imm) s = .fault f := by
  rw [exec, execLd, h, onOk_error]

end

section
variable {s : State} {m : Memory} (hrun : s.halted = false) (he : s.pc.toNat % 2 = 0)
  (hfetch : fetchWord s = readWord s.cfg m s.pc)
include hrun he hfetch

theorem step_of_unwritten (hc : s.cfg.memInit = .unspecified)
    (h : m.get s.pc.toNat = none ∨ m.get (s.pc.toNat + 1) = none) : step s = .fault (.unspecifiedRead s.pc) := by
  rw [step_of_running hrun, hfetch, readWord_of_unwritten he hc h, onOk_error]

/-- The word 0x0000 is HALT. -/
theorem step_of_zero (hc : s.cfg.memInit = .zero) (h0 : m.get s.pc.toNat = none) (h1 : m.get (s.pc.toNat + 1) = none) :
    step s = exec .halt s := by
  rw [step_of_running hrun, hfetch, readWord_of_zero he hc h0 h1, onOk_ok]
  rfl

end

/-- Settles O45: what a read of such a word gives under each `MEM_INIT`, as LD's data read and as the fetch of each view. -/
theorem unwrittenWordFollowsMemInit : Obligations.UnwrittenWordFollowsMemInit := by
  refine ⟨fun rd rs imm s _ ha => ⟨fun hc h => ?_, fun hc h0 h1 => ?_⟩, fun s hrun he => ⟨fun hc => ?_, fun hc => ?_⟩⟩
  · exact exec_ld_of_error (readWord_of_unwritten ha hc h)
  · exact writesReg_intro (exec_ld_of_ok (readWord_of_zero ha hc h0 h1)) rfl
  · exact ⟨fun hsmc hpc => step_of_unwritten hrun he (fetchWord_of_refuse hsmc hpc) hc,
      fun hsmc => step_of_unwritten hrun he (fetchWord_of_coherent hsmc) hc,
      fun hsmc => step_of_unwritten hrun he (fetchWord_of_split hsmc) hc⟩
  · exact ⟨fun hsmc hpc => step_of_zero hrun he (fetchWord_of_refuse hsmc hpc) hc,
      fun hsmc => step_of_zero hrun he (fetchWord_of_coherent hsmc) hc,
      fun hsmc => step_of_zero hrun he (fetchWord_of_split hsmc) hc⟩

/-! ## The host's placing of a word (rule R243) -/

theorem tableWord_eq {w : Nat} (h : w < 65536) : tableWord 16 w = BitVec.ofNat 16 w :=
  congrArg _ (Nat.mod_eq_of_lt h)

theorem decodeTableWord_eq (nbits w : Nat) : decodeTableWord nbits w = some (decode (tableWord nbits w)) := by
  simp only [decodeTableWord, decodeBytes, joinWord_split]

section
variable (v : Word) (s : State)

theorem fetchView_placeInstruction :
    fetchView (placeInstruction v s) = (fetchView s).setWord s.cfg.endian s.pc v := by
  simp only [fetchView, placeInstruction]
  cases s.cfg.smc with
  | refuse | coherent | split => rfl

theorem pc_not_mem_stored_placeInstruction : s.pc.toNat ∉ (placeInstruction v s).stored := by
  simp [placeInstruction]

variable {s}

theorem step_placeInstruction (he : s.pc.toNat % 2 = 0) :
    step (placeInstruction v s) = exec (decode v) (placeInstruction v s) := by
  have hview := fetchView_placeInstruction v s
  have hread : readWord s.cfg (fetchView (placeInstruction v s)) s.pc = .ok v := hview ▸ readWord_setWord _ _ he v
  rw [step_of_running rfl, fetchWord_of_not_refused fun _ => pc_not_mem_stored_placeInstruction v s]
  exact congrArg (onOk · fun w => exec (decode w) (placeInstruction v s)) hread

end

/-- Settles O46: the placed word lies in both memory views, outside `W`, so every `SMC` fetches it. -/
theorem placedWordRunsNext : Obligations.PlacedWordRunsNext := by
  intro s w hw he
  rw [decodeTableWord_eq, State.withFetchWord, tableWord_eq hw]
  exact ⟨rfl, step_placeInstruction _ he, rfl, rfl, rfl, rfl⟩

end Sys2Proof.Machine

/-! PROOF. ST, LD and STU of spec/42_load_store.md: their rows (I-format 1), the word stored or loaded at the effective address
(R130 to R133, R43), and the stop at an odd one (R46). -/

namespace Sys2Proof.Machine

/-! ## Effects -/

theorem effAddr_eq {imm : Int} (h : InSimm5 imm) (base : Word) : effAddr base imm = base + BitVec.ofInt 16 imm :=
  congrArg (base + ·) (simm5_eq h)

theorem readWord_odd {a : Word} (h : a.toNat % 2 = 1) (c : Config) (m : Memory) :
    readWord c m a = .error (.misaligned a) :=
  if_pos ((isOdd_iff a).mpr h)

section
variable {rd rs : Reg} {imm : Int} {s : State}

section
variable (he : (effAddr (readReg rs s) imm).toNat % 2 = 0)
include he

theorem exec_st_of_even :
    exec (.st rd rs imm) s = .next (advance (afterStore (effAddr (readReg rs s) imm) (readReg rd s) s)) := by
  rw [exec, execSt, storeWord_even he, onOk_ok]

theorem exec_stu_of_even :
    exec (.stu rd rs imm) s = .next (writeBack rs (effAddr (readReg rs s) imm)
      (afterStore (effAddr (readReg rs s) imm) (readReg rd s) s)) := by
  rw [exec, execStu, storeWord_even he, onOk_ok]

theorem writesReg_ld {v : Word} (h : HoldsWord s.cfg.endian s.mem (effAddr (readReg rs s) imm) v) :
    WritesReg (.ld rd rs imm) s rd (s.pc + 2) fun u => u = v :=
  writesReg_intro (exec_ld_of_ok (readWord_of_holdsWord he h)) rfl

end

section
variable (ho : (effAddr (readReg rs s) imm).toNat % 2 = 1)
include ho

theorem exec_st_of_odd : exec (.st rd rs imm) s = .fault (.misaligned (effAddr (readReg rs s) imm)) := by
  rw [exec, execSt, storeWord_odd ho, onOk_error]

theorem exec_ld_of_odd : exec (.ld rd rs imm) s = .fault (.misaligned (effAddr (readReg rs s) imm)) :=
  exec_ld_of_error (readWord_odd ho _ _)

theorem exec_stu_of_odd : exec (.stu rd rs imm) s = .fault (.misaligned (effAddr (readReg rs s) imm)) := by
  rw [exec, execStu, storeWord_odd ho, onOk_error]

end

end

/-! ## The obligations -/

/-- Settles O12: a store to an even address is the storing of a word, after which the pc alone moves. -/
theorem stStoresWord : Obligations.StStoresWord :=
  ⟨rowDecodes_formatI1 simm5Field_eq fun w h => by rw [decode, h]; rfl, fun _ _ _ s h =>
    ⟨effAddr_eq h _, fun he => ⟨_, exec_st_of_even he, rfl, SameRegs.refl s, storesWord_afterStore _ _ s⟩,
      exec_st_of_odd⟩⟩

/-- Settles O13: the word that memory holds at an even address, in either byte order, is written to Rd. -/
theorem ldLoadsWord : Obligations.LdLoadsWord :=
  ⟨rowDecodes_formatI1 simm5Field_eq fun w h => by rw [decode, h]; rfl, fun _ _ _ _ h =>
    ⟨effAddr_eq h _, fun _ he => writesReg_ld he, exec_ld_of_odd⟩⟩

/-- Settles O14: Rs is written behind the store, which has read the old Rd. -/
theorem stuStoresWordAndUpdatesBase : Obligations.StuStoresWordAndUpdatesBase :=
  ⟨rowDecodes_formatI1 simm5Field_eq fun w h => by rw [decode, h]; rfl, fun _ _ _ s h =>
    ⟨effAddr_eq h _, fun he => ⟨_, exec_stu_of_even he, rfl, readReg_writeBack_self _ _ _,
      fun _ hr => (readReg_writeBack _ _ _ _).trans (if_neg hr), storesWord_afterStore _ _ s⟩, exec_stu_of_odd⟩⟩

/-- Settles O15: the store left the two bytes of the word, which any state with those bytes holds too. -/
theorem loadGivesStoredWord : Obligations.LoadGivesStoredWord := by
  intro rd rs qd qs imm jmm s t u _ _ hst hcfg haddr h0 h1
  obtain ⟨s', hs, hk⟩ := onOk_next hst
  obtain ⟨he, rfl⟩ := storeWord_ok hs
  obtain rfl := Host.Outcome.next.inj hk
  obtain ⟨hholds, -⟩ := storesWord_afterStore (effAddr (readReg rs s) imm) (readReg rd s) s
  obtain ⟨ht0, ht1⟩ := (holdsWord_iff _ _ _ _).mp hholds
  refine writesReg_ld (haddr ▸ he) ?_
  rw [haddr, hcfg]
  exact (holdsWord_iff _ _ _ _).mpr ⟨h0.trans ht0, h1.trans ht1⟩

end Sys2Proof.Machine

/-! PROOF. SLBI of spec/43_byte_immediate.md (R141), JR and JALR of spec/44_jump_register.md (R150, R151): their rows (I-format 2),
the word written and the target. -/

namespace Sys2Proof.Machine

/-- A register target, where the immediate is in the range of its field. -/
theorem regTarget_eq {imm : Int} (h : InSimm8 imm) (base : Word) : regTarget base imm = base + BitVec.ofInt 16 imm :=
  congrArg (base + ·) (simm8_eq h)

/-- Settles O17: the immediate, below 256, fills the byte that the shift has cleared. -/
theorem slbiShiftsInByte : Obligations.SlbiShiftsInByte := by
  refine ⟨rowDecodes_formatI2 uimm8Field_eq fun w h => by rw [decode, h]; rfl, fun _ imm _ h => writesReg_intro rfl ?_⟩
  have himm : (uimm8 imm).toNat = imm := uimm8_toNat h
  rw [toNat_shiftInByte _ (himm.symm ▸ Nat.lt_succ_of_le h), himm]

/-- Settles O20: the effect of JR moves the pc alone. -/
theorem jrJumpsToRegister : Obligations.JrJumpsToRegister :=
  ⟨rowDecodes_formatI2 simm8Field_eq fun w h => by rw [decode, h]; rfl,
    fun _ _ _ h => movesPc_intro rfl (regTarget_eq h _)⟩

theorem exec_jalr {imm : Int} (h : InSimm8 imm) (rs : Reg) (s : State) :
    exec (.jalr rs imm) s = .next (setPc (readReg rs s + BitVec.ofInt 16 imm) (writeReg linkReg (s.pc + 2) s)) := by
  rw [exec, execJalr, regTarget_eq h, nextPc_eq]

/-- Settles O21: the target is of the state before the link is written, R7 being the only register that JALR writes. -/
theorem jalrLinksAndJumpsToRegister : Obligations.JalrLinksAndJumpsToRegister :=
  ⟨rowDecodes_formatI2 simm8Field_eq fun w h => by rw [decode, h]; rfl,
    fun rs _ s h => writesReg_intro (exec_jalr h rs s) rfl⟩

end Sys2Proof.Machine

/-! PROOF. RTI of spec/48_special.md, the return from the exception (R204, R217). -/

namespace Sys2Proof.Machine

theorem exec_rti_of_implemented {s : State} (h : s.cfg.excImplemented = true) :
    exec .rti s = .next (setPc s.epc s) :=
  if_pos h

theorem movesPc_rti {s : State} (h : s.cfg.excImplemented = true) : MovesPc .rti s s.epc :=
  movesPc_intro (exec_rti_of_implemented h) rfl

/-- Settles O40: RTI moves the pc to EPC, in which a SIIC left the address behind it. -/
theorem rtiReturnsFromTheException : Obligations.RtiReturnsFromTheException := by
  refine ⟨rowDecodes_of_opcode fun w h => by rw [decode, h]; rfl, fun _ => movesPc_rti, ?_⟩
  intro rs s t u hx hsiic hcfg hepc
  obtain rfl := Host.Outcome.next.inj ((exec_siic_of_implemented hx rs).symm.trans hsiic)
  rw [raiseIllegalOp_cfg] at hcfg
  rw [raiseIllegalOp_epc] at hepc
  exact hepc ▸ movesPc_rti (hcfg ▸ hx)

end Sys2Proof.Machine

/-! PROOF. The stops of spec/60_exceptions.md (R216): nothing is refused (R210), and what an instruction that stops is. -/

namespace Sys2Proof.Machine

/-! ## Accesses -/

theorem onOk_ne_refused {α : Type} {r : Except Fault α} {k : α → Result} {q : Refusal} (h : ∀ a, k a ≠ .refused q) :
    onOk r k ≠ .refused q := by
  cases r with
  | ok a => exact h a
  | error f => exact nofun

/-- An access after which the instruction completes stops it only by its own fault. -/
theorem onOk_next_fault {α : Type} {r : Except Fault α} {k : α → State} {f : Fault}
    (h : onOk r (fun a => .next (k a)) = .fault f) : r = .error f := by
  cases r with
  | ok a => cases h
  | error g =>
    cases h
    rfl

theorem storeWord_error {a v : Word} {s : State} {f : Fault} (h : storeWord a v s = .error f) :
    f = .misaligned a ∧ a.toNat % 2 = 1 := by
  rcases storeWord_cases a v s with ⟨ho, e⟩ | ⟨-, e⟩
  · cases e.symm.trans h
    exact ⟨rfl, ho⟩
  · cases e.symm.trans h

/-- A byte without a value is one under `unspecified`. -/
theorem memInit_of_readByte_none {z : MemInit} {m : Memory} {a : Nat} (h : m.readByte z a = none) : z = .unspecified := by
  cases z with
  | unspecified => rfl
  | zero => cases hb : m.get a <;> simp [Memory.readByte, hb] at h

theorem readWord_error {c : Config} {m : Memory} {a : Word} {f : Fault} (h : readWord c m a = .error f) :
    (f = .misaligned a ∧ a.toNat % 2 = 1) ∨
    (f = .unspecifiedRead a ∧ a.toNat % 2 = 0 ∧ c.memInit = .unspecified) := by
  rcases readWord_cases c m a with ⟨ho, e⟩ | ⟨he, hnone, e⟩ | ⟨b0, b1, -, -, -, e⟩
  · cases e.symm.trans h
    exact .inl ⟨rfl, ho⟩
  · cases e.symm.trans h
    exact .inr ⟨rfl, he, hnone.elim memInit_of_readByte_none memInit_of_readByte_none⟩
  · cases e.symm.trans h

/-! ## Instructions and steps -/

theorem exec_ne_refused (i : Instr) (s : State) (q : Refusal) : exec i s ≠ .refused q := by
  cases i
  case st | ld | stu => exact onOk_ne_refused fun _ => nofun
  case siic | rti =>
    simp only [exec, execSiic, execRti]
    split <;> exact nofun
  all_goals exact nofun

theorem step_ne_refused (s : State) (q : Refusal) : step s ≠ .refused q := by
  cases hrun : s.halted with
  | true =>
    rw [step_of_halted hrun]
    exact nofun
  | false =>
    rw [step_of_running hrun]
    exact onOk_ne_refused fun w => exec_ne_refused (decode w) s q

/-- Settles O52: of the instructions only ST, LD and STU make an access, whose faults are those of the alignment and of a byte
without a value, and SIIC stops while deferred. -/
theorem stopsAreThoseListed : Obligations.StopsAreThoseListed := by
  refine ⟨step_ne_refused, fun i s f h => ?_⟩
  cases i
  case st rd rs imm => exact .inl ⟨rd, rs, imm, .inl rfl, storeWord_error (onOk_next_fault h)⟩
  case stu rd rs imm => exact .inl ⟨rd, rs, imm, .inr (.inr rfl), storeWord_error (onOk_next_fault h)⟩
  case ld rd rs imm =>
    rcases readWord_error (onOk_next_fault h) with hodd | hnone
    · exact .inl ⟨rd, rs, imm, .inr (.inl rfl), hodd⟩
    · exact .inr (.inl ⟨rd, rs, imm, rfl, hnone⟩)
  case siic r =>
    cases hx : s.cfg.excImplemented with
    | true => cases (exec_siic_of_implemented hx r).symm.trans h
    | false =>
      cases (exec_siic_of_deferred hx r).symm.trans h
      exact .inr (.inr ⟨r, rfl, rfl, rfl⟩)
  case rti =>
    cases hx : s.cfg.excImplemented with
    | true => cases (exec_rti_of_implemented hx).symm.trans h
    | false => cases (exec_rti_of_deferred hx).symm.trans h
  all_goals cases h

end Sys2Proof.Machine
